-- ==== Sys2Proof/Word.lean ====
section
/-! DEFINITION. The word types: one byte, and the byte sequences the block works on (00_scope.md rules R8, R9). -/

namespace Sys2Proof

/-- A byte is 8 bits (R8). -/
abbrev Byte := BitVec 8

/-- A byte sequence, index 0 the head: the first byte received or the first byte sent (R9). -/
abbrev Bytes := List Byte

end Sys2Proof
end

