-- ==== Sys2Proof/Config.lean ====
section
/-! DEFINITION. What an implementation fixes (00_scope.md rule R7, 10_state.md rule R29) and the values the spec leaves open.

The build-time constants are one record, `Build`, held in `State` as plain data that no step changes, so that every
statement over all states holds for every legal value of them. The two static inputs `cfg_week` and `cfg_fwd_foreign`
are input pins of `State` (R29). `T_READ` is left out: no rule reads it (93_implementation_defined.md I1). -/

namespace Sys2Proof

/-- The build-time constants of R29. The two sizes are held so that only their legal values (R7) can be written:
`READ_MAX` = `readMaxPred` + 1 is at least 1, and `BUF_CAP` = 65542 + `READ_MAX` + `bufCapSlack`. -/
structure Build where
  /-- `SYNC0`, the first byte of the sync marker (R7, R71). -/
  sync0 : Byte
  /-- `SYNC1`, the second byte of the sync marker; it may equal `SYNC0` (R71). -/
  sync1 : Byte
  /-- `READ_MAX` less 1 (R7). -/
  readMaxPred : Nat
  /-- `BUF_CAP` less its least legal value (R7). -/
  bufCapSlack : Nat
  deriving DecidableEq, Repr

/-- `READ_MAX`, the most bytes one chunk may hold; at least 1 (R7, R181). -/
def Build.readMax (b : Build) : Nat := b.readMaxPred + 1

/-- `BUF_CAP`, at least 65542 + `READ_MAX` (R7, R63). -/
def Build.bufCap (b : Build) : Nat := 65542 + b.readMax + b.bufCapSlack

namespace Config

/-- `WEEK_CONST`: OPEN, no value in the source (R7, R163). A free value: nothing can prove what it is. Log entry 3. -/
opaque weekConst : BitVec 16

/-- `READ_MAX` less 1: OPEN (R7). A free value. Log entry 3. -/
opaque readMaxPred : Nat

/-- `BUF_CAP` less its least legal value: OPEN, constrained (R7). A free value. Log entry 3. -/
opaque bufCapSlack : Nat

/-- What a byte read at or past the end of a sequence would give. The spec defines no such read (`MemRead` is
"defined only when `off + n ≤ |B|`", R11) and performs none (R51), so the value is free. Log entry 6. -/
opaque outOfRangeByte : Nat → Byte

end Config

end Sys2Proof
end

