-- ==== Sys2Proof/Syntax.lean ====
section
/-! DEFINITION. The instructions. The block's "instruction word" is a wire frame and its opcode the (class, id) pair of
the frame (30_encoding.md rule R75): one constructor per row of spec/opcode_table.json, its operands what the row leaves
free of the key, and the payload. -/

namespace Sys2Proof

/-- The four decoded message types, T of `AGG_UPDATE(T, R)` and of the record port (R150, R31). -/
inductive RecType where
  | pvt
  | posecef
  | velecef
  | timeutc
  deriving DecidableEq, Repr

/-- The conditions of 60_exceptions.md rule R210, by the spec's names. -/
inductive Condition where
  /-- Code 1: `EXTRACT` steps 0, 3 and 5; a wait, not an error. -/
  | incompleteFrame
  /-- Code 2: `EXTRACT` step 8. -/
  | checksumMismatch
  /-- Code 3: `EXTRACT` steps 1 and 2. -/
  | noSync
  /-- Code 4: a decoder given fewer bytes than its type's minimum. -/
  | payloadTooShort
  /-- Code 5: `SYNTH` with the PVT or the VELECEF slot empty. -/
  | missingPrerequisite
  /-- Code 6: the source reports a fatal fault. -/
  | transportFatalSource
  /-- Code 7: the sink reports a fatal fault. -/
  | transportFatalSink
  deriving DecidableEq, Repr

/-- One constructor per row of spec/opcode_table.json. -/
inductive Instr where
  /-- `PVT`, key 0x0107: decode, update `slotPVT`, record, forward. -/
  | pvt (payload : Bytes)
  /-- `POSECEF`, key 0x0101: decode, update `slotPOS`, record, forward. -/
  | posecef (payload : Bytes)
  /-- `VELECEF`, key 0x0111: decode, update `slotVEL`, record, forward, then synthesize. -/
  | velecef (payload : Bytes)
  /-- `TIMEUTC`, key 0x0121: decode, update `slotUTC`, record, forward. -/
  | timeutc (payload : Bytes)
  /-- `NAV-OTHER`, key 0x01xx: any other id of class 0x01, id 0x06 among them; forward only. -/
  | navOther (id : Byte) (payload : Bytes)
  /-- `FOREIGN`: any class other than 0x01; forwarded only when `cfg_fwd_foreign` is 1. -/
  | foreign (cls : Byte) (id : Byte) (payload : Bytes)
  /-- `SOL`, key 0x0106, output only: build the derived solution from the slots and queue its frame. No received
  frame stands for it (R76: an input key 0x0106 is `NAV-OTHER`); a decoded VELECEF runs it (R187). -/
  | sol
  deriving DecidableEq, Repr

end Sys2Proof
end

