-- ==== Sys2Proof/WellFormed.lean ====
section
/-! DEFINITION. Which instructions a received frame can stand for (30_encoding.md rules R74 to R77). -/

namespace Sys2Proof

/-- A payload the 16-bit length field can declare: 0 to 65535 bytes (R8, R74). -/
def payloadFits (P : Bytes) : Bool := decide (P.length ≤ 65535)

/-- The four ids of class 0x01 that have a row of their own (R75). -/
def decodedIds : List Byte := [0x07, 0x01, 0x11, 0x21]

/-- `i` is what some received frame stands for: its payload fits, and its key falls to its own row of R75 and to no
earlier one. `sol` is output only ("never expected as input", R76), so it is not well formed as an input. -/
def Instr.wellFormed : Instr → Bool
  | .pvt P => payloadFits P
  | .posecef P => payloadFits P
  | .velecef P => payloadFits P
  | .timeutc P => payloadFits P
  | .navOther id P => !decodedIds.contains id && payloadFits P
  | .foreign cls _ P => cls != 0x01 && payloadFits P
  | .sol => false

/-- `WellFormed i`: see `Instr.wellFormed`. -/
abbrev WellFormed (i : Instr) : Prop := i.wellFormed = true

end Sys2Proof
end

