-- ==== Sys2Proof/Decode.lean ====
section
/-! DEFINITION. Byte order, the checksum-16 verifier, the frame parser and synchronizer, the selection of an instruction
by its dispatch key, and the encoder (20_memory.md R52, 40_checksum.md, 41_frame_codec.md, 30_encoding.md R70 to R77). -/

namespace Sys2Proof

/-! ### Byte order (R52: little-endian everywhere) -/

/-- `B[i]` (R9). Past the end the spec performs no read (R51); the value there is free. -/
def byteAt (B : Bytes) (i : Nat) : Byte := B.getD i (Config.outOfRangeByte i)

/-- `MemRead(B, off, n)`: the little-endian unsigned value of `B[off..off+n)` (R11, R52). -/
def memRead (B : Bytes) (off : Nat) : Nat → Nat
  | 0 => 0
  | n + 1 => (byteAt B off).toNat + 256 * memRead B (off + 1) n

/-- The `n` little-endian bytes of `v`: byte j is `v[8j+7:8j]` (R11). -/
def leBytes : Nat → Nat → Bytes
  | 0, _ => []
  | n + 1, v => BitVec.ofNat 8 v :: leBytes n (v / 256)

/-- `MemWrite(B, off, n, v)`: `B` with bytes `off .. off+n-1` replaced by the little-endian bytes of `v` (R11). -/
def memWrite (B : Bytes) (off n v : Nat) : Bytes :=
  B.take off ++ leBytes n v ++ B.drop (off + n)

/-- `LE16(v)`: the two bytes `v[7:0], v[15:8]` (R11). -/
def le16 (v : Nat) : Bytes := leBytes 2 v

/-! ### Checksum-16 (40_checksum.md) -/

/-- One byte of the running sum: `a += byte; b += a`, both modulo 256 (R100). -/
def chkStep (acc : Byte × Byte) (x : Byte) : Byte × Byte :=
  (acc.1 + x, acc.2 + (acc.1 + x))

/-- `CHK_COMPUTE(B)`, both accumulators starting at 0 (R100, decision D3). -/
def chkCompute (B : Bytes) : Byte × Byte := B.foldl chkStep (0, 0)

/-- `CHK_FRAME(class, id, payload)` (R101). -/
def chkFrame (cls id : Byte) (P : Bytes) : Byte × Byte :=
  chkCompute ([cls, id] ++ le16 P.length ++ P)

/-! ### Encoder (R110) -/

/-- `ENCODE(class, id, payload)`: the wire frame of R70. -/
def encodeFrame (bd : Build) (cls id : Byte) (P : Bytes) : Bytes :=
  [bd.sync0, bd.sync1, cls, id] ++ le16 P.length ++ P ++ [(chkFrame cls id P).1, (chkFrame cls id P).2]

/-! ### Parser and synchronizer (R111 to R115) -/

/-- `FIND_MARKER(B)`: the least index where `SYNC0 SYNC1` stands (R113). -/
def findMarker (bd : Build) : Bytes → Option Nat
  | [] => none
  | [_] => none
  | x :: y :: rest =>
    if x = bd.sync0 ∧ y = bd.sync1 then some 0 else (findMarker bd (y :: rest)).map (· + 1)

/-- The results of `EXTRACT` (R111); a discard also carries the condition that R210 gives it. -/
inductive Extract where
  | needMoreBytes
  | discard (n : Nat) (why : Condition)
  | frame (cls id : Byte) (payload : Bytes) (consumed : Nat)
  deriving DecidableEq, Repr

/-- `EXTRACT(B)`, steps 0 to 8 of R112. -/
def extract (bd : Build) (B : Bytes) : Extract :=
  if B.isEmpty then .needMoreBytes
  else
    match findMarker bd B with
    | none => .discard B.length .noSync
    | some (k + 1) => .discard (k + 1) .noSync
    | some 0 =>
      if B.length < 6 then .needMoreBytes
      else if B.length < memRead B 4 2 + 8 then .needMoreBytes
      else if (byteAt B (6 + memRead B 4 2), byteAt B (7 + memRead B 4 2))
          = chkFrame (byteAt B 2) (byteAt B 3) ((B.drop 6).take (memRead B 4 2)) then
        .frame (byteAt B 2) (byteAt B 3) ((B.drop 6).take (memRead B 4 2)) (memRead B 4 2 + 8)
      else .discard 1 .checksumMismatch

/-! ### Selection by dispatch key (R75, R76, R77, R135) -/

/-- The instruction a checksum-valid frame stands for: total over all keys (R77). Key 0x0106 is `navOther` (R76). -/
def selectInstr (cls id : Byte) (P : Bytes) : Instr :=
  if cls ≠ 0x01 then .foreign cls id P
  else if id = 0x07 then .pvt P
  else if id = 0x01 then .posecef P
  else if id = 0x11 then .velecef P
  else if id = 0x21 then .timeutc P
  else .navOther id P

/-- A row of the key table: a key matches when it agrees with `value` under `mask` (R75, spec/opcode_table.json). -/
structure KeyRow where
  mnemonic : String
  value : BitVec 16
  mask : BitVec 16
  deriving DecidableEq, Repr

/-- The rows of R75 in order, first match wins, and last the output-only row `SOL` of spec/opcode_table.json, which no
key reaches. -/
def keyTable : List KeyRow :=
  [⟨"PVT", 0x0107, 0xFFFF⟩, ⟨"POSECEF", 0x0101, 0xFFFF⟩, ⟨"VELECEF", 0x0111, 0xFFFF⟩,
    ⟨"TIMEUTC", 0x0121, 0xFFFF⟩, ⟨"NAV-OTHER", 0x0100, 0xFF00⟩, ⟨"FOREIGN", 0x0000, 0x0000⟩,
    ⟨"SOL", 0x0106, 0xFFFF⟩]

/-- `key = class·256 + id` (R75). -/
def dispatchKey (cls id : Byte) : BitVec 16 := cls ++ id

/-- The first row a key matches. -/
def firstRow (key : BitVec 16) : Option KeyRow := keyTable.find? (fun r => key &&& r.mask == r.value)

/-- The mnemonic of an instruction's row, as spec/opcode_table.json spells it. -/
def Instr.mnemonic : Instr → String
  | .pvt _ => "PVT"
  | .posecef _ => "POSECEF"
  | .velecef _ => "VELECEF"
  | .timeutc _ => "TIMEUTC"
  | .navOther _ _ => "NAV-OTHER"
  | .foreign _ _ _ => "FOREIGN"
  | .sol => "SOL"

/-! ### Decoding bytes -/

/-- What the decoder answers on any bytes: an instruction with the bytes it took, or one of the named rejections
(wait for more bytes; drop `n` bytes because of `why`). -/
inductive Decoded where
  | instr (i : Instr) (consumed : Nat)
  | needMoreBytes
  | discard (n : Nat) (why : Condition)
  deriving DecidableEq, Repr

/-- The decoder: `EXTRACT`, then the selection by key. Total on any bytes. -/
def decode (bd : Build) (B : Bytes) : Decoded :=
  match extract bd B with
  | .needMoreBytes => .needMoreBytes
  | .discard n why => .discard n why
  | .frame cls id P n => .instr (selectInstr cls id P) n

/-! ### Encoding instructions (R70, R75) -/

/-- Class, id and payload of an instruction's frame; `sol`, which no received frame stands for, has none. -/
def Instr.fields : Instr → Option (Byte × Byte × Bytes)
  | .pvt P => some (0x01, 0x07, P)
  | .posecef P => some (0x01, 0x01, P)
  | .velecef P => some (0x01, 0x11, P)
  | .timeutc P => some (0x01, 0x21, P)
  | .navOther id P => some (0x01, id, P)
  | .foreign cls id P => some (cls, id, P)
  | .sol => none

/-- The wire frame of an instruction. -/
def encode (bd : Build) (i : Instr) : Option Bytes :=
  i.fields.map (fun f => encodeFrame bd f.1 f.2.1 f.2.2)

/-! ### The words of spec/opcode_table.json -/

/-- The default build: `SYNC0` = 0xB5, `SYNC1` = 0x62 (R7's defaults), the two sizes free. Log entry 3. -/
def Build.default : Build :=
  { sync0 := 0xB5, sync1 := 0x62, readMaxPred := Config.readMaxPred, bufCapSlack := Config.bufCapSlack }

/-- The frame whose bits, numbered as spec/opcode_table.json numbers them, are `w`: bits 15..0 are the key (class in
15..8, id in 7..0), bits 31..16 the length field, and the payload's bytes count on from there; bits from `nbits` on are
zero. The sync marker and the checksum, which the table gives no bits, are the encoder's. Log entry 5. -/
def tableFrame (bd : Build) (nbits w : Nat) : Bytes :=
  encodeFrame bd (BitVec.ofNat 8 (w % 2 ^ nbits / 256)) (BitVec.ofNat 8 (w % 2 ^ nbits))
    (leBytes (w % 2 ^ nbits / 65536 % 65536) (w % 2 ^ nbits / 4294967296))

/-- The instruction the decoder reads from the frame whose bits are `w`. -/
def decodeTableWord (nbits w : Nat) : Option Instr :=
  match decode Build.default (tableFrame Build.default nbits w) with
  | .instr i n => if n = (tableFrame Build.default nbits w).length then some i else none
  | .needMoreBytes => none
  | .discard _ _ => none

end Sys2Proof
end

