-- ==== Sys2Proof/Machine/State.lean ====
section
/-! DEFINITION. The state of the machine, its reset value, and the reasons a step can stop
(10_state.md rules R20 to R35, 60_exceptions.md rule R210). -/

namespace Sys2Proof.Machine

/-! ### Decoded records (30_encoding.md R80 to R83)

Every field is held as its bit pattern (R10); where the spec's type is `iN` the number is the pattern's `toInt`. The six
reserved bytes of the PVT payload are no field (R85). -/

/-- A PVT record: the 31 fields of R80. -/
structure PvtRecord where
  iTOW : BitVec 32
  year : BitVec 16
  month : BitVec 8
  day : BitVec 8
  hour : BitVec 8
  min : BitVec 8
  sec : BitVec 8
  valid : BitVec 8
  tAcc : BitVec 32
  nano : BitVec 32
  fixType : BitVec 8
  flags : BitVec 8
  flags2 : BitVec 8
  numSV : BitVec 8
  lon : BitVec 32
  lat : BitVec 32
  height : BitVec 32
  hMSL : BitVec 32
  hAcc : BitVec 32
  vAcc : BitVec 32
  velN : BitVec 32
  velE : BitVec 32
  velD : BitVec 32
  gSpeed : BitVec 32
  headMot : BitVec 32
  sAcc : BitVec 32
  headAcc : BitVec 32
  pDOP : BitVec 16
  headVeh : BitVec 32
  magDec : BitVec 16
  magAcc : BitVec 16
  deriving DecidableEq, Repr

/-- A POSECEF record (R81). -/
structure PosecefRecord where
  iTOW : BitVec 32
  ecefX : BitVec 32
  ecefY : BitVec 32
  ecefZ : BitVec 32
  pAcc : BitVec 32
  deriving DecidableEq, Repr

/-- A VELECEF record (R82). -/
structure VelecefRecord where
  iTOW : BitVec 32
  ecefVX : BitVec 32
  ecefVY : BitVec 32
  ecefVZ : BitVec 32
  sAcc : BitVec 32
  deriving DecidableEq, Repr

/-- A TIMEUTC record (R83). -/
structure TimeutcRecord where
  iTOW : BitVec 32
  tAcc : BitVec 32
  nano : BitVec 32
  year : BitVec 16
  month : BitVec 8
  day : BitVec 8
  hour : BitVec 8
  min : BitVec 8
  sec : BitVec 8
  valid : BitVec 8
  deriving DecidableEq, Repr

/-- The records as tagged variants, "one case per message kind" (R130). -/
inductive Record where
  | pvt (r : PvtRecord)
  | posecef (r : PosecefRecord)
  | velecef (r : VelecefRecord)
  | timeutc (r : TimeutcRecord)
  deriving DecidableEq, Repr

/-! ### Controller, output queue, observation -/

/-- The controller phase (R27). -/
inductive Phase where
  /-- Waiting for the next chunk. -/
  | idle
  /-- Running the extraction loop and emitting the events of each dispatch. -/
  | scan
  /-- Halted after an unrecoverable transport failure; left only by reset. -/
  | fatal
  deriving DecidableEq, Repr

/-- `fatal_cause` (R28): `NONE`, `SOURCE` or `SINK`. -/
inductive FatalCause where
  | none
  | source
  | sink
  deriving DecidableEq, Repr

/-- An output event of `OUTQ` (R20, R185): `FrameEv(F)`, or `RecordEv(T, D)` with D the record's packed bytes. -/
inductive OutEvent where
  | frame (F : Bytes)
  | record (T : RecType) (D : Bytes)
  deriving DecidableEq, Repr

/-- An entry of the observation of a run (R35). -/
inductive Obs where
  /-- A frame emitted on the output port. -/
  | frame (F : Bytes)
  /-- A record emitted on the record port. -/
  | record (T : RecType) (D : Bytes)
  /-- Entry to `FATAL` with its cause. -/
  | fatal (cause : FatalCause)
  deriving DecidableEq, Repr

/-! ### The host's side -/

/-- The input pins of R31 other than the input byte port: levels the block samples at each step. -/
structure Pins where
  /-- `rst`, active high. -/
  rst : Bool
  /-- `src_fatal`. -/
  srcFatal : Bool
  /-- `sink_fatal`. -/
  sinkFatal : Bool
  /-- `out_ready`: the sink accepts a frame. -/
  outReady : Bool
  /-- `rec_ready`: the record sink accepts a record. -/
  recReady : Bool
  /-- `cfg_week[15:0]`, carrying `WEEK_CONST` (R29). -/
  cfgWeek : BitVec 16
  /-- `cfg_fwd_foreign`, carrying `FWD_FOREIGN` (R29). -/
  cfgFwdForeign : Bool
  deriving DecidableEq, Repr

/-- One move of the host between two steps of the block: the levels it drives from then on, and the reads it offers at
the input port (each the bytes up to and including one `in_last`). Log entry 1. -/
structure HostMove where
  pins : Pins
  offer : List Bytes
  deriving DecidableEq, Repr

/-! ### The state -/

/-- The state: the eight elements of R20 (`buf` to `outq`), the build constants (R29), the host's side (pins, the input
port, the moves still to come), and the model's own record of the run (`log`, `trace`). Log entries 1 and 2. -/
structure State where
  /-- `BUF`: the received bytes not yet consumed or discarded, head first (R23). -/
  buf : Bytes
  /-- `slotPVT` (R25). -/
  slotPvt : Option PvtRecord
  /-- `slotPOS` (R25). -/
  slotPos : Option PosecefRecord
  /-- `slotVEL` (R25). -/
  slotVel : Option VelecefRecord
  /-- `slotUTC` (R25); written, never read. -/
  slotUtc : Option TimeutcRecord
  /-- `phase` (R27). -/
  phase : Phase
  /-- `fatal_cause` (R28). -/
  fatalCause : FatalCause
  /-- `OUTQ`, head first (R185). -/
  outq : List OutEvent
  /-- The build-time constants (R29). -/
  build : Build
  /-- The levels of the input pins (R31). -/
  pins : Pins
  /-- What the source offers at the input port and the block has not taken, oldest first: each entry the bytes of one
  read, its last byte carrying `in_last` (R31, R181). -/
  source : List Bytes
  /-- The host's moves still to come, one taken after each step; when none is left the levels hold. -/
  host : List HostMove
  /-- The observation of the run so far, oldest first (R35). -/
  log : List Obs
  /-- The conditions noted so far, oldest first (R11 `note`, R210). -/
  trace : List Condition
  deriving DecidableEq, Repr

/-- Why a step can stop with a fault: for no reason. The spec gives the block none: no input stops it (R212), and a fatal
transport fault is entry to the phase `FATAL`, a next state (R216). Log entry 11. -/
inductive Fault where
  deriving DecidableEq, Repr

/-- Why a step can be refused. -/
inductive Refusal where
  /-- An instruction without a meaning, raised by an arm of `exec` (none is left). Safe: nothing is claimed of it. -/
  | notModelled (mnemonic : String)
  /-- The host changes `cfg_week` or `cfg_fwd_foreign` while `rst` is 0, raised by `State.hostMove`: "a model has no step
  for the change" (93_implementation_defined.md I11; R29, R251). Safe: nothing is claimed of such a run. -/
  | configChangedWhileRunning
  deriving DecidableEq, Repr

/-- The pins right after reset: `rst` low, no fatal report (R244), both sinks ready, `cfg_week` the open `WEEK_CONST`,
`cfg_fwd_foreign` at its default 0 (R7). Log entries 3 and 4. -/
def Pins.atReset : Pins :=
  { rst := false, srcFatal := false, sinkFatal := false, outReady := true, recReady := true,
    cfgWeek := Config.weekConst, cfgFwdForeign := false }

/-- The machine right after a reset, with build constants `b` and input pins `p`: the values of R34, no byte offered and
nothing yet observed. -/
def State.resetWith (b : Build) (p : Pins) : State :=
  { buf := [], slotPvt := none, slotPos := none, slotVel := none, slotUtc := none,
    phase := .idle, fatalCause := .none, outq := [],
    build := b, pins := p, source := [], host := [], log := [], trace := [] }

/-- The machine right after reset (R34, R240). -/
def State.reset : State := State.resetWith Build.default Pins.atReset

end Sys2Proof.Machine
end

