-- ==== Sys2Proof/Machine/Ops.lean ====
section
/-! DEFINITION. The named operations over the state that the meanings share: noting a condition, the output queue, the
aggregator, entry to `FATAL`, and reset, its only return. -/

namespace Sys2Proof.Machine

/-- `note <Condition>`: recorded in the model's trace; changes no state of the block and drives no port (R11). -/
def State.note (s : State) (c : Condition) : State := { s with trace := s.trace ++ [c] }

/-- `BUF` replaced by `B`. -/
def State.setBuf (s : State) (B : Bytes) : State := { s with buf := B }

/-- `phase <- p`. -/
def State.setPhase (s : State) (p : Phase) : State := { s with phase := p }

/-- `OUTQ.push(e)` (R184). -/
def State.push (s : State) (e : OutEvent) : State := { s with outq := s.outq ++ [e] }

/-- `OUTQ.push(FrameEv(ENCODE(class, id, P)))`: forwarding, and the sending of a SOL frame (R184). -/
def State.pushFrame (s : State) (cls id : Byte) (P : Bytes) : State :=
  s.push (.frame (encodeFrame s.build cls id P))

/-- `AGG_UPDATE(T, R)`: the whole record replaces the slot of its type (R150). -/
def State.aggUpdate (s : State) : Record → State
  | .pvt r => { s with slotPvt := some r }
  | .posecef r => { s with slotPos := some r }
  | .velecef r => { s with slotVel := some r }
  | .timeutc r => { s with slotUtc := some r }

/-- What the observation records of an output event (R35). -/
def OutEvent.toObs : OutEvent → Obs
  | .frame F => .frame F
  | .record T D => .record T D

/-- `EMIT` of the head event: `emit_frame` or `emit_record`, then `OUTQ <- tail(OUTQ)` (R189, R190). -/
def State.emit (s : State) : State :=
  match s.outq with
  | [] => s
  | e :: rest => { s with outq := rest, log := s.log ++ [e.toObs] }

/-- The condition a fatal report raises (R210 codes 6 and 7). -/
def FatalCause.conditions : FatalCause → List Condition
  | .none => []
  | .source => [.transportFatalSource]
  | .sink => [.transportFatalSink]

/-- `FAULT(cause)`, the block's one exception entry (R216): `phase <- FATAL`, the cause latched, pending events never
emitted. Nothing is saved (R217): `BUF` and the slots keep their values. -/
def State.raiseFatal (s : State) (cause : FatalCause) : State :=
  { s with
    phase := .fatal
    fatalCause := cause
    outq := []
    log := s.log ++ [.fatal cause]
    trace := s.trace ++ cause.conditions }

/-- `RESET`, the only way out of `FATAL` (R240, R218). The build constants, the pins, what the source still offers and the
observation are the host's and are not reset. -/
def State.resetBlock (s : State) : State :=
  { s with
    buf := []
    slotPvt := none
    slotPos := none
    slotVel := none
    slotUtc := none
    outq := []
    fatalCause := .none
    phase := .idle }

end Sys2Proof.Machine
end

