-- ==== Sys2Proof/Machine/Operands.lean ====
section
/-! DEFINITION. Operand assembly: the typed field reads, the payload layouts, and the four fixed-width decoders with their
multiplexer (30_encoding.md R78 to R88, 42_decoders.md). -/

namespace Sys2Proof.Machine

/-- The minimum payload length of a record type (R78). -/
def minLen : RecType → Nat
  | .pvt => 92
  | .posecef => 20
  | .velecef => 20
  | .timeutc => 20

/-- The id of a record type within class 0x01 (R135). -/
def recId : RecType → Byte
  | .pvt => 0x07
  | .posecef => 0x01
  | .velecef => 0x11
  | .timeutc => 0x21

/-- The bit pattern of the 1-byte field at `off` (R88). -/
def field8 (P : Bytes) (off : Nat) : BitVec 8 := BitVec.ofNat 8 (memRead P off 1)

/-- The bit pattern of the 2-byte field at `off` (R88). -/
def field16 (P : Bytes) (off : Nat) : BitVec 16 := BitVec.ofNat 16 (memRead P off 2)

/-- The bit pattern of the 4-byte field at `off` (R88). -/
def field32 (P : Bytes) (off : Nat) : BitVec 32 := BitVec.ofNat 32 (memRead P off 4)

/-- `DEC_PVT` (R131); `none` is `Incomplete`. Offsets by R80; bytes 78 to 83 are not read (R85). -/
def decPvt (P : Bytes) : Option PvtRecord :=
  if P.length < 92 then none
  else some
    { iTOW := field32 P 0, year := field16 P 4, month := field8 P 6, day := field8 P 7,
      hour := field8 P 8, min := field8 P 9, sec := field8 P 10, valid := field8 P 11,
      tAcc := field32 P 12, nano := field32 P 16, fixType := field8 P 20, flags := field8 P 21,
      flags2 := field8 P 22, numSV := field8 P 23, lon := field32 P 24, lat := field32 P 28,
      height := field32 P 32, hMSL := field32 P 36, hAcc := field32 P 40, vAcc := field32 P 44,
      velN := field32 P 48, velE := field32 P 52, velD := field32 P 56, gSpeed := field32 P 60,
      headMot := field32 P 64, sAcc := field32 P 68, headAcc := field32 P 72, pDOP := field16 P 76,
      headVeh := field32 P 84, magDec := field16 P 88, magAcc := field16 P 90 }

/-- `DEC_POSECEF` (R132). -/
def decPosecef (P : Bytes) : Option PosecefRecord :=
  if P.length < 20 then none
  else some
    { iTOW := field32 P 0, ecefX := field32 P 4, ecefY := field32 P 8, ecefZ := field32 P 12,
      pAcc := field32 P 16 }

/-- `DEC_VELECEF` (R133). -/
def decVelecef (P : Bytes) : Option VelecefRecord :=
  if P.length < 20 then none
  else some
    { iTOW := field32 P 0, ecefVX := field32 P 4, ecefVY := field32 P 8, ecefVZ := field32 P 12,
      sAcc := field32 P 16 }

/-- `DEC_TIMEUTC` (R134). -/
def decTimeutc (P : Bytes) : Option TimeutcRecord :=
  if P.length < 20 then none
  else some
    { iTOW := field32 P 0, tAcc := field32 P 4, nano := field32 P 8, year := field16 P 12,
      month := field8 P 14, day := field8 P 15, hour := field8 P 16, min := field8 P 17,
      sec := field8 P 18, valid := field8 P 19 }

/-- `DEC_T` for each type (R135). -/
def decRecord : RecType → Bytes → Option Record
  | .pvt, P => (decPvt P).map .pvt
  | .posecef, P => (decPosecef P).map .posecef
  | .velecef, P => (decVelecef P).map .velecef
  | .timeutc, P => (decTimeutc P).map .timeutc

/-- The type a record's tag names (R130). -/
def recordType : Record → RecType
  | .pvt _ => .pvt
  | .posecef _ => .posecef
  | .velecef _ => .velecef
  | .timeutc _ => .timeutc

/-! ### The payload layouts as tables (R80 to R84), and the records read as numbers (R88) -/

/-- The types of the fields (R10, R56). -/
inductive FieldType where
  | u8 | i8 | u16 | i16 | u32 | i32
  deriving DecidableEq, Repr

/-- Width in bytes. -/
def fieldWidth : FieldType → Nat
  | .u8 => 1 | .i8 => 1 | .u16 => 2 | .i16 => 2 | .u32 => 4 | .i32 => 4

/-- The value `v` of a field's bytes read with its type: `zext` for `uN`, `sext` for `iN` (R88). -/
def fieldNumber (t : FieldType) (v : Nat) : Int :=
  match t with
  | .u8 => v
  | .u16 => v
  | .u32 => v
  | .i8 => if v < 2 ^ 7 then v else v - 2 ^ 8
  | .i16 => if v < 2 ^ 15 then v else v - 2 ^ 16
  | .i32 => if v < 2 ^ 31 then v else v - 2 ^ 32

/-- A row of a payload layout: name, offset, type. -/
structure FieldRow where
  name : String
  off : Nat
  type : FieldType
  deriving DecidableEq, Repr

/-- The number the spec's table reads from payload `P` for a row. -/
def rowNumber (P : Bytes) (f : FieldRow) : Int := fieldNumber f.type (memRead P f.off (fieldWidth f.type))

/-- R80, without its reserved gap at 78 to 83. -/
def pvtLayout : List FieldRow :=
  [⟨"iTOW", 0, .u32⟩, ⟨"year", 4, .u16⟩, ⟨"month", 6, .u8⟩, ⟨"day", 7, .u8⟩, ⟨"hour", 8, .u8⟩,
    ⟨"min", 9, .u8⟩, ⟨"sec", 10, .u8⟩, ⟨"valid", 11, .u8⟩, ⟨"tAcc", 12, .u32⟩, ⟨"nano", 16, .i32⟩] ++
  [⟨"fixType", 20, .i8⟩, ⟨"flags", 21, .u8⟩, ⟨"flags2", 22, .u8⟩, ⟨"numSV", 23, .u8⟩, ⟨"lon", 24, .i32⟩,
    ⟨"lat", 28, .i32⟩, ⟨"height", 32, .i32⟩, ⟨"hMSL", 36, .i32⟩, ⟨"hAcc", 40, .u32⟩, ⟨"vAcc", 44, .u32⟩] ++
  [⟨"velN", 48, .i32⟩, ⟨"velE", 52, .i32⟩, ⟨"velD", 56, .i32⟩, ⟨"gSpeed", 60, .i32⟩, ⟨"headMot", 64, .i32⟩,
    ⟨"sAcc", 68, .u32⟩, ⟨"headAcc", 72, .u32⟩, ⟨"pDOP", 76, .u16⟩, ⟨"headVeh", 84, .i32⟩, ⟨"magDec", 88, .i16⟩,
    ⟨"magAcc", 90, .u16⟩]

/-- R81. -/
def posecefLayout : List FieldRow :=
  [⟨"iTOW", 0, .u32⟩, ⟨"ecefX", 4, .i32⟩, ⟨"ecefY", 8, .i32⟩, ⟨"ecefZ", 12, .i32⟩, ⟨"pAcc", 16, .u32⟩]

/-- R82. -/
def velecefLayout : List FieldRow :=
  [⟨"iTOW", 0, .u32⟩, ⟨"ecefVX", 4, .i32⟩, ⟨"ecefVY", 8, .i32⟩, ⟨"ecefVZ", 12, .i32⟩, ⟨"sAcc", 16, .u32⟩]

/-- R83. -/
def timeutcLayout : List FieldRow :=
  [⟨"iTOW", 0, .u32⟩, ⟨"tAcc", 4, .u32⟩, ⟨"nano", 8, .i32⟩, ⟨"year", 12, .u16⟩, ⟨"month", 14, .u8⟩,
    ⟨"day", 15, .u8⟩, ⟨"hour", 16, .u8⟩, ⟨"min", 17, .u8⟩, ⟨"sec", 18, .u8⟩, ⟨"valid", 19, .u8⟩]

/-- R84: the SOL payload. -/
def solLayout : List FieldRow :=
  [⟨"iTOW", 0, .u32⟩, ⟨"fTOW", 4, .i32⟩, ⟨"week", 8, .i16⟩, ⟨"gpsFix", 10, .u8⟩, ⟨"flags", 11, .u8⟩,
    ⟨"ecefX", 12, .i32⟩, ⟨"ecefY", 16, .i32⟩, ⟨"ecefZ", 20, .i32⟩, ⟨"pAcc", 24, .u32⟩] ++
  [⟨"ecefVX", 28, .i32⟩, ⟨"ecefVY", 32, .i32⟩, ⟨"ecefVZ", 36, .i32⟩, ⟨"sAcc", 40, .u32⟩, ⟨"pDOP", 44, .u16⟩,
    ⟨"reserved1", 46, .u8⟩, ⟨"numSV", 47, .u8⟩, ⟨"reserved2", 48, .u32⟩]

/-- The layout of a record type. -/
def layoutOf : RecType → List FieldRow
  | .pvt => pvtLayout
  | .posecef => posecefLayout
  | .velecef => velecefLayout
  | .timeutc => timeutcLayout

/-- A record's fields as numbers, in the order of its layout: `iN` fields sign-extended, `uN` fields zero-extended. -/
def recordNumbers : Record → List Int
  | .pvt r =>
    ([r.iTOW.toNat, r.year.toNat, r.month.toNat, r.day.toNat, r.hour.toNat, r.min.toNat, r.sec.toNat,
      r.valid.toNat, r.tAcc.toNat, r.nano.toInt] : List Int) ++
    ([r.fixType.toInt, r.flags.toNat, r.flags2.toNat, r.numSV.toNat, r.lon.toInt, r.lat.toInt, r.height.toInt,
      r.hMSL.toInt, r.hAcc.toNat, r.vAcc.toNat] : List Int) ++
    ([r.velN.toInt, r.velE.toInt, r.velD.toInt, r.gSpeed.toInt, r.headMot.toInt, r.sAcc.toNat, r.headAcc.toNat,
      r.pDOP.toNat, r.headVeh.toInt, r.magDec.toInt, r.magAcc.toNat] : List Int)
  | .posecef r => [r.iTOW.toNat, r.ecefX.toInt, r.ecefY.toInt, r.ecefZ.toInt, r.pAcc.toNat]
  | .velecef r => [r.iTOW.toNat, r.ecefVX.toInt, r.ecefVY.toInt, r.ecefVZ.toInt, r.sAcc.toNat]
  | .timeutc r =>
    [r.iTOW.toNat, r.tAcc.toNat, r.nano.toInt, r.year.toNat, r.month.toNat, r.day.toNat, r.hour.toNat,
      r.min.toNat, r.sec.toNat, r.valid.toNat]

end Sys2Proof.Machine
end

