-- ==== Sys2Proof/Machine/Flags.lean ====
section
/-! DEFINITION. The block's status flags (10_state.md R26) and the remapping of the PVT status bits into the SOL flags
byte (44_synthesizer.md R162). The block has no condition codes. -/

namespace Sys2Proof.Machine

/-- `pvt_v` (R26). -/
def State.pvtV (s : State) : Bool := s.slotPvt.isSome

/-- `pos_v` (R26). -/
def State.posV (s : State) : Bool := s.slotPos.isSome

/-- `vel_v` (R26). -/
def State.velV (s : State) : Bool := s.slotVel.isSome

/-- `utc_v` (R26). -/
def State.utcV (s : State) : Bool := s.slotUtc.isSome

/-- Bit `i` of `v`, widened to 8 bits with zeros: `zext_8(v[i])`. -/
def bitZext8 (v : BitVec 8) (i : Nat) : BitVec 8 := BitVec.ofNat 8 (v.getLsbD i).toNat

/-- `SOLFLAGS` from the PVT `flags` and `valid` bytes (R162; bit positions R86). -/
def solFlagsOf (flags valid : BitVec 8) : BitVec 8 :=
  (bitZext8 flags 0 <<< 0) ||| (bitZext8 flags 1 <<< 1) ||| (bitZext8 valid 1 <<< 2) ||| (bitZext8 valid 1 <<< 3)

/-- `SOLFLAGS(V)` (R162). -/
def solFlags (V : PvtRecord) : BitVec 8 := solFlagsOf V.flags V.valid

end Sys2Proof.Machine
end

