-- ==== Sys2Proof/Machine/Solution.lean ====
section
/-! DEFINITION. The solution synthesizer and the meaning of SOL (44_synthesizer.md). -/

namespace Sys2Proof.Machine

/-- The position fields (X, Y, Z, accuracy) of the solution: those of `slotPOS`, or zeros when it is empty (R160, R161). -/
def solPosition : Option PosecefRecord → BitVec 32 × BitVec 32 × BitVec 32 × BitVec 32
  | none => (0, 0, 0, 0)
  | some p => (p.ecefX, p.ecefY, p.ecefZ, p.pAcc)

/-- The field writes of R160 in order, each as (offset, width, value): the bit pattern of its source (R88, R161). -/
def solWrites (week : BitVec 16) (V : PvtRecord) (pos : Option PosecefRecord) (E : VelecefRecord) :
    List (Nat × Nat × Nat) :=
  [(0, 4, V.iTOW.toNat), (4, 4, V.nano.toNat), (8, 2, week.toNat), (10, 1, V.fixType.toNat),
    (11, 1, (solFlags V).toNat), (12, 4, (solPosition pos).1.toNat), (16, 4, (solPosition pos).2.1.toNat),
    (20, 4, (solPosition pos).2.2.1.toNat), (24, 4, (solPosition pos).2.2.2.toNat), (28, 4, E.ecefVX.toNat),
    (32, 4, E.ecefVY.toNat), (36, 4, E.ecefVZ.toNat), (40, 4, E.sAcc.toNat), (44, 2, V.pDOP.toNat),
    (46, 1, 0), (47, 1, V.numSV.toNat), (48, 4, 0)]

/-- `MemWrite`s applied one after the other. -/
def memWrites (S : Bytes) : List (Nat × Nat × Nat) → Bytes
  | [] => S
  | (off, n, v) :: ws => memWrites (memWrite S off n v) ws

/-- The 52-byte SOL payload: the writes of R160 into `zeros(52)`. (Irreducible only so that a proof that meets a payload
does not run the writes; `memRead_solPayload` reads its fields.) -/
@[irreducible]
def solPayload (week : BitVec 16) (V : PvtRecord) (pos : Option PosecefRecord) (E : VelecefRecord) : Bytes :=
  memWrites (List.replicate 52 0x00) (solWrites week V pos E)

/-- `SYNTH()` (R160); `none` is `InsufficientData`: the PVT or the VELECEF slot is empty. -/
def State.synth (s : State) : Option Bytes :=
  match s.slotPvt, s.slotVel with
  | some V, some E => some (solPayload s.pins.cfgWeek V s.slotPos E)
  | _, _ => none

/-- `SYNTH`, then its frame `ENCODE(0x01, 0x06, S)` queued if it has data, else `MissingPrerequisite` noted (R160, R164,
R184). -/
def State.synthesize (s : State) : State :=
  match s.synth with
  | none => s.note .missingPrerequisite
  | some S => s.pushFrame 0x01 0x06 S

/-- SOL: the output-only row `ENCODE(0x01, 0x06, SYNTH())` (R164, spec/opcode_table.json). -/
def execSol (s : State) : Host.Outcome State Fault Refusal := .next s.synthesize

end Sys2Proof.Machine
end

