-- ==== Sys2Proof/Machine/Decoded.lean ====
section
/-! DEFINITION. The meanings of the four decoded messages: PVT, POSECEF, VELECEF, TIMEUTC (45_stream_controller.md R184). -/

namespace Sys2Proof.Machine

/-- `DISPATCH` of a frame of class 0x01 and a decoded id, up to and including the forward: decode; if there is a record,
update its slot and queue the record event; queue the frame unchanged in every case (R184, R186, R188). -/
def decodeAndForward (T : RecType) (P : Bytes) (s : State) : State :=
  match decRecord T P with
  | none => (s.note .payloadTooShort).pushFrame 0x01 (recId T) P
  | some r => ((s.aggUpdate r).push (.record T (P.take (minLen T)))).pushFrame 0x01 (recId T) P

/-- PVT (R184, R131). -/
def execPvt (P : Bytes) (s : State) : Host.Outcome State Fault Refusal := .next (decodeAndForward .pvt P s)

/-- POSECEF (R184, R132). -/
def execPosecef (P : Bytes) (s : State) : Host.Outcome State Fault Refusal := .next (decodeAndForward .posecef P s)

/-- TIMEUTC (R184, R134). -/
def execTimeutc (P : Bytes) (s : State) : Host.Outcome State Fault Refusal := .next (decodeAndForward .timeutc P s)

/-- VELECEF (R184, R133): as the others, and then, exactly when a record has just landed in `slotVEL`, the synthesis
(R187); a short payload triggers none. -/
def execVelecef (P : Bytes) (s : State) : Host.Outcome State Fault Refusal :=
  match decRecord .velecef P with
  | none => .next (decodeAndForward .velecef P s)
  | some _ => .next (decodeAndForward .velecef P s).synthesize

end Sys2Proof.Machine
end

