-- ==== Sys2Proof/Machine/Forward.lean ====
section
/-! DEFINITION. The meanings of the messages no decoder reads: NAV-OTHER and FOREIGN (45_stream_controller.md R184, R186). -/

namespace Sys2Proof.Machine

/-- NAV-OTHER: any other id of class 0x01, forwarded unchanged (R186); an input of id 0x06 among them (R76). -/
def execNavOther (id : Byte) (P : Bytes) (s : State) : Host.Outcome State Fault Refusal :=
  .next (s.pushFrame 0x01 id P)

/-- FOREIGN: forwarded unchanged if `cfg_fwd_foreign` is 1, else nothing (R184). -/
def execForeign (cls id : Byte) (P : Bytes) (s : State) : Host.Outcome State Fault Refusal :=
  if s.pins.cfgFwdForeign then .next (s.pushFrame cls id P) else .next s

end Sys2Proof.Machine
end

