-- ==== Sys2Proof/Machine/Dispatch.lean ====
section
/-! DEFINITION. `DISPATCH`: what each instruction does (45_stream_controller.md R184), one arm per row of
spec/opcode_table.json. -/

namespace Sys2Proof.Machine

def exec (i : Instr) (s : State) : Host.Outcome State Fault Refusal :=
  match i with
  | .pvt P => Sys2Proof.Machine.execPvt P s
  | .posecef P => Sys2Proof.Machine.execPosecef P s
  | .velecef P => Sys2Proof.Machine.execVelecef P s
  | .timeutc P => Sys2Proof.Machine.execTimeutc P s
  | .navOther id P => Sys2Proof.Machine.execNavOther id P s
  | .foreign cls id P => Sys2Proof.Machine.execForeign cls id P s
  | .sol => Sys2Proof.Machine.execSol s

end Sys2Proof.Machine
end

