-- ==== Sys2Proof/Machine/Controller.lean ====
section
/-! DEFINITION. The serial protocol controller: which step is enabled, and what each does (45_stream_controller.md,
60_exceptions.md R215 to R221, 70_reset_and_hazards.md R240), and the host's move after it. -/

namespace Sys2Proof.Machine

/-- The next chunk at the input port and what stays offered after it (R181): the bytes up to `in_last`, the chunk ending
at the `READ_MAX`-th byte if that comes first. An empty read transfers nothing and is passed over (R182). -/
def takeChunk (readMax : Nat) : List Bytes → Option (Bytes × List Bytes)
  | [] => none
  | [] :: rest => takeChunk readMax rest
  | (b :: c) :: rest =>
    if (b :: c).length ≤ readMax then some (b :: c, rest)
    else some ((b :: c).take readMax, (b :: c).drop readMax :: rest)

/-- `INGEST(c)` (R181): the chunk appended at the tail of `BUF`, then `SCAN`. -/
def State.ingest (s : State) : State :=
  match takeChunk s.build.readMax s.source with
  | none => s
  | some (c, rest) => { s with buf := s.buf ++ c, source := rest, phase := .scan }

/-- `SCAN` (R183): one `EXTRACT` of `BUF`, its result applied; an extracted frame's bytes are dropped and the
instruction it stands for is run. -/
def State.scan (s : State) : Host.Outcome State Fault Refusal :=
  match decode s.build s.buf with
  | .needMoreBytes => .next ((s.note .incompleteFrame).setPhase .idle)
  | .discard n why => .next ((s.note why).setBuf (s.buf.drop n))
  | .instr i n => exec i (s.setBuf (s.buf.drop n))

/-- The steps of R180, and `wait`: none of them is enabled. -/
inductive StepKind where
  | reset
  | fault (cause : FatalCause)
  | ingest
  | scan
  | emit
  | wait
  deriving DecidableEq, Repr

/-- Whether the port of an output event is ready (R189, R190). -/
def Pins.readyFor (p : Pins) : OutEvent → Bool
  | .frame _ => p.outReady
  | .record _ _ => p.recReady

/-- The step the block takes (R180): `rst` wins over everything, a fatal report over the rest unless the phase is already
`FATAL`, and `SINK` over `SOURCE` (R215, R218, R220). -/
def State.enabledStep (s : State) : StepKind :=
  if s.pins.rst then .reset
  else
    match s.phase with
    | .fatal => .wait
    | .idle =>
      if s.pins.sinkFatal then .fault .sink
      else if s.pins.srcFatal then .fault .source
      else if (takeChunk s.build.readMax s.source).isSome then .ingest
      else .wait
    | .scan =>
      if s.pins.sinkFatal then .fault .sink
      else if s.pins.srcFatal then .fault .source
      else
        match s.outq with
        | [] => .scan
        | e :: _ => if s.pins.readyFor e then .emit else .wait

/-- One step of the block, every operation atomic (R57). A block with no step enabled waits: its state stays (R191, R226). -/
def State.blockStep (s : State) : Host.Outcome State Fault Refusal :=
  match s.enabledStep with
  | .reset => .next s.resetBlock
  | .fault cause => .next (s.raiseFatal cause)
  | .ingest => .next s.ingest
  | .scan => s.scan
  | .emit => .next s.emit
  | .wait => .next s

/-- Whether a move of the host leaves the two configuration inputs alone or makes the change while `rst` is 1 (R29, R251). -/
def HostMove.configLegal (m : HostMove) (p : Pins) : Bool :=
  m.pins.rst || (m.pins.cfgWeek == p.cfgWeek && m.pins.cfgFwdForeign == p.cfgFwdForeign)

/-- The host's next move, if any: new pin levels, more reads offered. A change of the configuration while `rst` is 0 has no
step (93_implementation_defined.md I11). -/
def State.hostMove (s : State) : Host.Outcome State Fault Refusal :=
  match s.host with
  | [] => .next s
  | m :: rest =>
    if m.configLegal s.pins then .next { s with pins := m.pins, source := s.source ++ m.offer, host := rest }
    else .refused .configChangedWhileRunning

/-- A step of the block, then the host's move. -/
def State.controllerStep (s : State) : Host.Outcome State Fault Refusal :=
  match s.blockStep with
  | .next t => t.hostMove
  | .fault f => .fault f
  | .refused r => .refused r

/-- `s` about to run the frame `F`: `F` is all of `BUF`, and `SCAN` is the step enabled. -/
def State.withFrame (s : State) (F : Bytes) : State :=
  { s with
    buf := F
    phase := .scan
    fatalCause := .none
    outq := []
    pins := { s.pins with rst := false, srcFatal := false, sinkFatal := false }
    host := [] }

end Sys2Proof.Machine
end

