-- ==== Sys2Proof/Machine/Ports.lean ====
section
/-! DEFINITION. The output ports as views of the state (10_state.md R28, R31, R32, R34; 60_exceptions.md R221;
70_reset_and_hazards.md R241). An output whose `valid` is 0 has no value (R34): it is `none`. -/

namespace Sys2Proof.Machine

/-- `in_ready`: 1 exactly when `phase = IDLE` and `rst = 0` (R192). -/
def State.inReady (s : State) : Bool := !s.pins.rst && decide (s.phase = .idle)

/-- The transfers of a frame on the output port: its bytes head first, `out_last` on the last (R189). -/
def frameBeats : Bytes → List (Byte × Bool)
  | [] => []
  | [b] => [(b, true)]
  | b :: c :: rest => (b, false) :: frameBeats (c :: rest)

/-- What the block offers on the output port, as the transfers of the frame at the head of `OUTQ`; `none` is
`out_valid = 0`. -/
def State.outOffer (s : State) : Option (List (Byte × Bool)) :=
  if s.pins.rst then none
  else
    match s.phase, s.outq with
    | .scan, .frame F :: _ => some (frameBeats F)
    | _, _ => none

/-- `rec_type` (R31). -/
def recTypeCode : RecType → BitVec 2
  | .pvt => 0b00
  | .posecef => 0b01
  | .velecef => 0b10
  | .timeutc => 0b11

/-- `rec_data`: byte j of the record in bits 8j+7..8j, zero above (R32). -/
def recData (D : Bytes) : BitVec 736 := BitVec.ofNat 736 (memRead D 0 D.length)

/-- What the block offers on the record port; `none` is `rec_valid = 0`. -/
def State.recOffer (s : State) : Option (BitVec 2 × BitVec 736) :=
  if s.pins.rst then none
  else
    match s.phase, s.outq with
    | .scan, .record T D :: _ => some (recTypeCode T, recData D)
    | _, _ => none

/-- `fatal`: 1 exactly when `phase = FATAL` (R31), 0 while `rst = 1` (R241). -/
def State.fatalPort (s : State) : Bool := !s.pins.rst && decide (s.phase = .fatal)

/-- The code of a cause (R28). -/
def causeCode : FatalCause → BitVec 2
  | .none => 0b00
  | .source => 0b01
  | .sink => 0b10

/-- `fatal_cause` (R28), 0b00 while `rst = 1` (R241). -/
def State.fatalCausePort (s : State) : BitVec 2 := if s.pins.rst then 0b00 else causeCode s.fatalCause

/-- The code of a condition (60_exceptions.md R210). -/
def conditionCode : Condition → Nat
  | .incompleteFrame => 1
  | .checksumMismatch => 2
  | .noSync => 3
  | .payloadTooShort => 4
  | .missingPrerequisite => 5
  | .transportFatalSource => 6
  | .transportFatalSink => 7

/-- Whether a condition is fatal (R210, R211). -/
def conditionFatal : Condition → Bool
  | .transportFatalSource => true
  | .transportFatalSink => true
  | _ => false

end Sys2Proof.Machine
end

