-- ==== Sys2Proof/Machine/Step.lean ====
section
/-! DEFINITION. One step of the machine, and the placing of an instruction where the next step runs it. -/

namespace Sys2Proof.Machine

/-- One step: a step of the block (45_stream_controller.md R180), then the host's move. -/
def step (s : State) : Host.Outcome State Fault Refusal := s.controllerStep

/-- `s` with the frame whose bits are `w`, as spec/opcode_table.json numbers them, where the next step runs it: alone in
`BUF`, `SCAN` enabled. It stands for the host's delivery of the frame in a chunk and its `INGEST`. Log entry 5. -/
def State.withFetchWord (s : State) (nbits w : Nat) : State := s.withFrame (tableFrame s.build nbits w)

end Sys2Proof.Machine
end

