-- ==== Sys2Proof/Safety.lean ====
section
/-! DEFINITION. The terms the statements use: runs, what holds of every state a run reaches, and when the host lets the
block drain. -/

namespace Sys2Proof.Machine

/-- `k` steps, stopping at the first refusal. -/
def run : Nat → State → Host.Outcome State Fault Refusal
  | 0, s => .next s
  | k + 1, s =>
    match step s with
    | .next t => run k t
    | .fault f => .fault f
    | .refused r => .refused r

/-- No reset and no fatal report at the pins. -/
def Pins.Quiet (p : Pins) : Prop := p.rst = false ∧ p.srcFatal = false ∧ p.sinkFatal = false

/-- The host lets the block run: pins quiet, both sinks ready, no move to come (R244 point 4). -/
def State.Draining (s : State) : Prop :=
  s.pins.Quiet ∧ s.pins.outReady = true ∧ s.pins.recReady = true ∧ s.host = []

/-- `B` starts with the sync marker. -/
def StartsWithMarker (bd : Build) (B : Bytes) : Prop := B.take 2 = [bd.sync0, bd.sync1]

/-- What `BUF` may hold in `IDLE` (R24): nothing, or the beginning of a frame that is not all there. -/
def HeldPart (bd : Build) (B : Bytes) : Prop :=
  B = [] ∨ (StartsWithMarker bd B ∧ (B.length < 6 ∨ B.length < memRead B 4 2 + 8))

/-- A pending event is a whole frame of this build, or a record of its type's length (R20, R32, R110). -/
def OutEvent.WellMade (bd : Build) : OutEvent → Prop
  | .frame F => ∃ cls id P, P.length ≤ 65535 ∧ F = encodeFrame bd cls id P
  | .record T D => D.length = minLen T

/-- What holds of every state a run reaches: R24 and R27 in `IDLE`, R28 of the cause, R185 and R216 of `OUTQ`, R63 of
`BUF`. -/
structure State.Inv (s : State) : Prop where
  idleQueueEmpty : s.phase = .idle → s.outq = []
  idleHolds : s.phase = .idle → HeldPart s.build s.buf
  fatalQueueEmpty : s.phase = .fatal → s.outq = []
  causeIffFatal : s.fatalCause = .none ↔ s.phase ≠ .fatal
  queueAtMostThree : s.outq.length ≤ 3
  queueWellMade : ∀ e ∈ s.outq, e.WellMade s.build
  bufFits : s.buf.length ≤ s.build.bufCap

/-- The four slots. -/
def State.slots (s : State) :
    Option PvtRecord × Option PosecefRecord × Option VelecefRecord × Option TimeutcRecord :=
  (s.slotPvt, s.slotPos, s.slotVel, s.slotUtc)

/-- What has been observed and what is decided but not yet taken by a port, in order (R35, R185). -/
def State.decided (s : State) : List Obs := s.log ++ s.outq.map OutEvent.toObs

/-- `EXTRACT` applied `k` times to a fixed buffer, each result's drop applied (R116). -/
def drainBuf (bd : Build) : Nat → Bytes → Bytes
  | 0, B => B
  | k + 1, B =>
    match extract bd B with
    | .needMoreBytes => B
    | .discard n _ => drainBuf bd k (B.drop n)
    | .frame _ _ _ n => drainBuf bd k (B.drop n)

/-- No chunk ends with `SYNC0` while the next begins with `SYNC1` (R246). -/
def NoSplitMarker (bd : Build) (chunks : List Bytes) : Prop :=
  ∀ before c d after, chunks = before ++ c :: d :: after →
    ¬ (c.getLast? = some bd.sync0 ∧ d.head? = some bd.sync1)

end Sys2Proof.Machine
end

