-- ==== Sys2Proof/Certificates/Slice0/Obligations.lean ====
section
/-! DEFINITION. The statements for the provers. Where a statement rests on a decision of the spec (Dn of
92_eei_decisions.md) or on a choice of this model (a log entry), its docstring says so. -/

open Sys2Proof Sys2Proof.Machine

/-! ### Encoding and the frame codec -/

/-- Frames written out byte by byte from R70 and 95_test_vectors.md (N1 to N4, T1, X4, P3), one for each row of the table
that input can match, decode to what they stand for. The sync bytes are the defaults (D2, log entry 3); the checksum bytes are
those of accumulators that start at 0 (D3, log entry 13). -/
def Obligations.DecodesWrittenFrames : Prop :=
  decode Build.default [0xB5, 0x62, 0x01, 0x06, 0x00, 0x00, 0x07, 0x16] = .instr (.navOther 0x06 []) 8 ∧
  decode Build.default [0xB5, 0x62, 0x01, 0x30, 0x02, 0x00, 0xAA, 0xBB, 0x98, 0x0D]
    = .instr (.navOther 0x30 [0xAA, 0xBB]) 10 ∧
  decode Build.default [0xB5, 0x62, 0x0A, 0x04, 0x00, 0x00, 0x0E, 0x34] = .instr (.foreign 0x0A 0x04 []) 8 ∧
  decode Build.default [0xB5, 0x62, 0x01, 0x07, 0x04, 0x00, 0x01, 0x02, 0x03, 0x04, 0x16, 0x65]
    = .instr (.pvt [0x01, 0x02, 0x03, 0x04]) 12 ∧
  decode Build.default
      [0xB5, 0x62, 0x01, 0x01, 0x14, 0x00, 0x00, 0xCA, 0x5B, 0x07, 0x4E, 0xE5, 0x93, 0x18, 0xEB, 0x32, 0xA4, 0xF8,
        0x14, 0x0C, 0x3A, 0x1B, 0xFA, 0x00, 0x00, 0x00, 0x48, 0x58]
    = .instr (.posecef [0x00, 0xCA, 0x5B, 0x07, 0x4E, 0xE5, 0x93, 0x18, 0xEB, 0x32, 0xA4, 0xF8,
        0x14, 0x0C, 0x3A, 0x1B, 0xFA, 0x00, 0x00, 0x00]) 28 ∧
  decode Build.default
      [0xB5, 0x62, 0x01, 0x11, 0x14, 0x00, 0x00, 0xCA, 0x5B, 0x07, 0x01, 0x00, 0x00, 0x00, 0x02, 0x00, 0x00, 0x00,
        0x03, 0x00, 0x00, 0x00, 0x04, 0x00, 0x00, 0x00, 0x5C, 0x82]
    = .instr (.velecef [0x00, 0xCA, 0x5B, 0x07, 0x01, 0x00, 0x00, 0x00, 0x02, 0x00, 0x00, 0x00,
        0x03, 0x00, 0x00, 0x00, 0x04, 0x00, 0x00, 0x00]) 28 ∧
  decode Build.default
      [0xB5, 0x62, 0x01, 0x21, 0x14, 0x00, 0x00, 0xCA, 0x5B, 0x07, 0x19, 0x00, 0x00, 0x00, 0xA8, 0xE4, 0xFF, 0xFF,
        0xE8, 0x07, 0x05, 0x11, 0x0C, 0x22, 0x26, 0x07, 0x65, 0x98]
    = .instr (.timeutc [0x00, 0xCA, 0x5B, 0x07, 0x19, 0x00, 0x00, 0x00, 0xA8, 0xE4, 0xFF, 0xFF,
        0xE8, 0x07, 0x05, 0x11, 0x0C, 0x22, 0x26, 0x07]) 28

/-- Decoding the encoding of any well-formed instruction gives it back, whatever bytes follow, for every build and every
operand the encoding admits (R70, R75, R117). -/
def Obligations.DecodeEncodeRoundTrip : Prop :=
  ∀ (bd : Build) (i : Instr), WellFormed i →
    ∃ F, encode bd i = some F ∧ ∀ T, decode bd (F ++ T) = .instr i F.length

/-- R117. -/
def Obligations.ExtractEncodeRoundTrip : Prop :=
  ∀ (bd : Build) (cls id : Byte) (P T : Bytes), P.length ≤ 65535 →
    extract bd (encodeFrame bd cls id P ++ T) = .frame cls id P (P.length + 8)

/-- R118: the bytes forwarded are the bytes consumed. -/
def Obligations.ExtractedFrameReencodes : Prop :=
  ∀ (bd : Build) (B : Bytes) (cls id : Byte) (P : Bytes) (n : Nat), extract bd B = .frame cls id P n →
    encodeFrame bd cls id P = B.take n ∧ n = P.length + 8 ∧ n ≤ B.length ∧ P.length ≤ 65535

/-- R75, first matching row wins, over all 65536 keys (R77): the instruction selected is the row's, with the frame's own
class, id and payload. -/
def Obligations.KeySelectsFirstTableRow : Prop :=
  ∀ (cls id : Byte) (P : Bytes),
    (firstRow (dispatchKey cls id)).map KeyRow.mnemonic = some (selectInstr cls id P).mnemonic ∧
    (selectInstr cls id P).fields = some (cls, id, P)

/-- The instruction a frame's class and id select, form by form; no frame selects `sol` (R75, R76 with D25). -/
def Obligations.InstructionChosenByKey : Prop :=
  ∀ (cls id : Byte) (P : Bytes),
    (selectInstr cls id P = .pvt P ↔ cls = 0x01 ∧ id = 0x07) ∧
    (selectInstr cls id P = .posecef P ↔ cls = 0x01 ∧ id = 0x01) ∧
    (selectInstr cls id P = .velecef P ↔ cls = 0x01 ∧ id = 0x11) ∧
    (selectInstr cls id P = .timeutc P ↔ cls = 0x01 ∧ id = 0x21) ∧
    (selectInstr cls id P = .navOther id P ↔ cls = 0x01 ∧ id ∉ decodedIds) ∧
    (selectInstr cls id P = .foreign cls id P ↔ cls ≠ 0x01) ∧
    selectInstr cls id P ≠ .sol

/-- R70: where each field of an encoded frame stands, its values, and the length of the whole. -/
def Obligations.FrameFieldsAtTheirPositions : Prop :=
  ∀ (bd : Build) (cls id : Byte) (P : Bytes), P.length ≤ 65535 →
    (encodeFrame bd cls id P).length = 8 + P.length ∧
    byteAt (encodeFrame bd cls id P) 0 = bd.sync0 ∧
    byteAt (encodeFrame bd cls id P) 1 = bd.sync1 ∧
    byteAt (encodeFrame bd cls id P) 2 = cls ∧
    byteAt (encodeFrame bd cls id P) 3 = id ∧
    memRead (encodeFrame bd cls id P) 4 2 = P.length ∧
    ((encodeFrame bd cls id P).drop 6).take P.length = P ∧
    byteAt (encodeFrame bd cls id P) (6 + P.length) = (chkFrame cls id P).1 ∧
    byteAt (encodeFrame bd cls id P) (7 + P.length) = (chkFrame cls id P).2

/-- R73: the checksum covers class, id, length and payload, in a frame the encoder makes and in a frame the parser takes. -/
def Obligations.ChecksumCoversClassToPayload : Prop :=
  (∀ (bd : Build) (cls id : Byte) (P : Bytes), P.length ≤ 65535 →
    (byteAt (encodeFrame bd cls id P) (6 + P.length), byteAt (encodeFrame bd cls id P) (7 + P.length))
      = chkCompute (((encodeFrame bd cls id P).drop 2).take (4 + P.length))) ∧
  (∀ (bd : Build) (B : Bytes) (cls id : Byte) (P : Bytes) (n : Nat), extract bd B = .frame cls id P n →
    (byteAt B (6 + P.length), byteAt B (7 + P.length)) = chkCompute ((B.drop 2).take (4 + P.length)))

/-- R102, which rests on the accumulators starting at 0 (D3): the plain byte sum, and the sum weighted by the distance
from the end plus one. -/
def Obligations.ChecksumClosedForm : Prop :=
  ∀ B : Bytes,
    (chkCompute B).1.toNat = (∑ i ∈ Finset.range B.length, (byteAt B i).toNat) % 256 ∧
    (chkCompute B).2.toNat = (∑ i ∈ Finset.range B.length, (B.length - i) * (byteAt B i).toNat) % 256

/-- R52 and R11: a multi-byte read is the sum of its bytes weighted by powers of 256, and reads back what a write put
there, leaving every other byte alone. -/
def Obligations.MultiByteAccessIsLittleEndian : Prop :=
  (∀ (B : Bytes) (off n : Nat), off + n ≤ B.length →
    memRead B off n = ∑ j ∈ Finset.range n, (byteAt B (off + j)).toNat * 256 ^ j) ∧
  (∀ (B : Bytes) (off n v : Nat), off + n ≤ B.length →
    (memWrite B off n v).length = B.length ∧
    memRead (memWrite B off n v) off n = v % 256 ^ n ∧
    ∀ k, k < B.length → (k < off ∨ off + n ≤ k) → byteAt (memWrite B off n v) k = byteAt B k)

/-- R113 (the least index is D4). -/
def Obligations.MarkerIsLeastIndex : Prop :=
  ∀ (bd : Build) (B : Bytes),
    (∀ k, findMarker bd B = some k ↔
      StartsWithMarker bd (B.drop k) ∧ ∀ j, j < k → ¬ StartsWithMarker bd (B.drop j)) ∧
    (findMarker bd B = none ↔ ∀ j, ¬ StartsWithMarker bd (B.drop j))

/-- R111: the three results of `EXTRACT`, a function of the buffer alone. -/
def Obligations.ExtractHasThreeResults : Prop :=
  ∀ (bd : Build) (B : Bytes),
    extract bd B = .needMoreBytes ∨
    (∃ n why, extract bd B = .discard n why ∧ 1 ≤ n) ∨
    ∃ cls id P, extract bd B = .frame cls id P (P.length + 8)

/-- R116 (with R114 and R115): every result drops at least one byte that is there or waits; it waits exactly for an empty
buffer or the beginning of a frame; and applied again and again it waits after at most `|B|` calls. -/
def Obligations.ExtractMakesProgress : Prop :=
  ∀ (bd : Build) (B : Bytes),
    (∀ n why, extract bd B = .discard n why → 1 ≤ n ∧ n ≤ B.length) ∧
    (∀ cls id P n, extract bd B = .frame cls id P n → 8 ≤ n ∧ n ≤ B.length) ∧
    (extract bd B = .needMoreBytes ↔ HeldPart bd B) ∧
    ∃ k, k ≤ B.length ∧ extract bd (drainBuf bd k B) = .needMoreBytes

/-- R119. -/
def Obligations.GarbageDiscardedExactly : Prop :=
  ∀ (bd : Build) (G : Bytes) (cls id : Byte) (P T : Bytes), P.length ≤ 65535 →
    (∀ k, k < G.length → ¬ StartsWithMarker bd ((G ++ [bd.sync0, bd.sync1]).drop k)) →
    (G ≠ [] → extract bd (G ++ encodeFrame bd cls id P ++ T) = .discard G.length .noSync) ∧
    extract bd ((G ++ encodeFrame bd cls id P ++ T).drop G.length) = .frame cls id P (P.length + 8)

/-- R120, the bytes other than marker and length: one changed class, id, payload or checksum byte costs one byte. -/
def Obligations.OneCorruptByteDiscardsOne : Prop :=
  ∀ (bd : Build) (cls id : Byte) (P T : Bytes) (k : Nat) (x : Byte), P.length ≤ 65535 →
    (k = 2 ∨ k = 3 ∨ (6 ≤ k ∧ k < P.length + 8)) →
    x ≠ byteAt (encodeFrame bd cls id P) k →
    extract bd ((encodeFrame bd cls id P).set k x ++ T) = .discard 1 .checksumMismatch

/-- R112 steps 3 and 5: a frame of which only the first bytes have come, two or more, waits for the rest. -/
def Obligations.PartialFrameWaits : Prop :=
  ∀ (bd : Build) (cls id : Byte) (P : Bytes) (k : Nat), P.length ≤ 65535 → 2 ≤ k → k < P.length + 8 →
    extract bd ((encodeFrame bd cls id P).take k) = .needMoreBytes

/-! ### Decoders -/

/-- R130: a short payload gives no record; any other gives the record of its type whose fields are the numbers the layout
table reads at its offsets with its types, none scaled (R88, R136). The PVT offsets are those of R80 (D9). -/
def Obligations.DecodersReadEveryField : Prop :=
  ∀ (T : RecType) (P : Bytes),
    (P.length < minLen T → decRecord T P = none) ∧
    (minLen T ≤ P.length → ∃ r, decRecord T P = some r ∧ recordType r = T ∧
      recordNumbers r = (layoutOf T).map (rowNumber P))

/-- R78: the minimum lengths, and a payload at least that long decoded from its first minimum-length bytes, the rest
ignored; that a longer payload is decoded and not rejected is D15 (R87, log entry 13). -/
def Obligations.DecodersIgnoreBytesPastMinimum : Prop :=
  minLen .pvt = 92 ∧ minLen .posecef = 20 ∧ minLen .velecef = 20 ∧ minLen .timeutc = 20 ∧
  ∀ (T : RecType) (P X : Bytes),
    (P.length < minLen T → decRecord T P = none) ∧
    (minLen T ≤ P.length → (decRecord T P).isSome ∧ decRecord T (P.take (minLen T) ++ X) = decRecord T P)

/-- R85, its first half: the six reserved PVT bytes reach no field. -/
def Obligations.PvtReservedBytesReachNoField : Prop :=
  ∀ P Q : Bytes, 92 ≤ P.length → P.length = Q.length →
    (∀ k, k < 92 → (k < 78 ∨ 84 ≤ k) → byteAt P k = byteAt Q k) → decPvt P = decPvt Q

/-! ### Aggregator -/

/-- R150 and R151: an update replaces the whole record of its slot and leaves the other three slots, and everything else,
as they were, whatever the epochs. -/
def Obligations.AggUpdateReplacesOnlyItsSlot : Prop :=
  ∀ s : State,
    (∀ r, s.aggUpdate (.pvt r) = { s with slotPvt := some r } ∧ (s.aggUpdate (.pvt r)).pvtV = true) ∧
    (∀ r, s.aggUpdate (.posecef r) = { s with slotPos := some r } ∧ (s.aggUpdate (.posecef r)).posV = true) ∧
    (∀ r, s.aggUpdate (.velecef r) = { s with slotVel := some r } ∧ (s.aggUpdate (.velecef r)).velV = true) ∧
    (∀ r, s.aggUpdate (.timeutc r) = { s with slotUtc := some r } ∧ (s.aggUpdate (.timeutc r)).utcV = true)

/-- R152 and R26: the slots are empty after reset; a step with `rst` at 1 empties all four; with `rst` at 0 a slot that
changes takes the record of a frame of its own type, which this step, a `SCAN`, extracted. -/
def Obligations.SlotsWrittenOnlyByDecodeOrReset : Prop :=
  (State.reset.pvtV = false ∧ State.reset.posV = false ∧ State.reset.velV = false ∧ State.reset.utcV = false) ∧
  ∀ s t : State, step s = .next t →
    (s.pins.rst = true → t.slotPvt = none ∧ t.slotPos = none ∧ t.slotVel = none ∧ t.slotUtc = none) ∧
    (s.pins.rst = false →
      (t.slotPvt ≠ s.slotPvt → s.pins.Quiet ∧ s.phase = .scan ∧ s.outq = [] ∧
        ∃ P n r, decode s.build s.buf = .instr (.pvt P) n ∧ decPvt P = some r ∧ t.slotPvt = some r) ∧
      (t.slotPos ≠ s.slotPos → s.pins.Quiet ∧ s.phase = .scan ∧ s.outq = [] ∧
        ∃ P n r, decode s.build s.buf = .instr (.posecef P) n ∧ decPosecef P = some r ∧ t.slotPos = some r) ∧
      (t.slotVel ≠ s.slotVel → s.pins.Quiet ∧ s.phase = .scan ∧ s.outq = [] ∧
        ∃ P n r, decode s.build s.buf = .instr (.velecef P) n ∧ decVelecef P = some r ∧ t.slotVel = some r) ∧
      (t.slotUtc ≠ s.slotUtc → s.pins.Quiet ∧ s.phase = .scan ∧ s.outq = [] ∧
        ∃ P n r, decode s.build s.buf = .instr (.timeutc P) n ∧ decTimeutc P = some r ∧ t.slotUtc = some r))

/-! ### Synthesizer -/

/-- R160's gate, R26's reads: no payload exactly when the PVT or the VELECEF slot is empty. -/
def Obligations.SynthGatedByPvtAndVelocity : Prop :=
  ∀ s : State, s.synth = none ↔ (s.pvtV = false ∨ s.velV = false)

/-- R161: where every field of the SOL payload comes from. The widths and places of the fields are R84's (D11). -/
def Obligations.SolPayloadFieldSources : Prop :=
  ∀ (s : State) (V : PvtRecord) (E : VelecefRecord), s.slotPvt = some V → s.slotVel = some E →
    ∃ S, s.synth = some S ∧ S.length = 52 ∧
      solLayout.map (rowNumber S) =
        [(V.iTOW.toNat : Int), V.nano.toInt, s.pins.cfgWeek.toInt, V.fixType.toNat, (solFlags V).toNat] ++
        (match s.slotPos with
          | none => [0, 0, 0, 0]
          | some p => [p.ecefX.toInt, p.ecefY.toInt, p.ecefZ.toInt, (p.pAcc.toNat : Int)]) ++
        [E.ecefVX.toInt, E.ecefVY.toInt, E.ecefVZ.toInt, (E.sAcc.toNat : Int), V.pDOP.toNat, 0, V.numSV.toNat, 0]

/-- R162: the flags byte, bit by bit. The bit positions are R86's (D10). -/
def Obligations.SolFlagsBitByBit : Prop :=
  ∀ V : PvtRecord,
    (solFlags V).getLsbD 0 = V.flags.getLsbD 0 ∧
    (solFlags V).getLsbD 1 = V.flags.getLsbD 1 ∧
    (solFlags V).getLsbD 2 = V.valid.getLsbD 1 ∧
    (solFlags V).getLsbD 3 = V.valid.getLsbD 1 ∧
    ∀ i, 4 ≤ i → (solFlags V).getLsbD i = false

/-- R164: a SOL payload goes out as a 60-byte frame with this header. -/
def Obligations.SolFrameHeaderAndLength : Prop :=
  ∀ (s : State) (S : Bytes), s.synth = some S →
    (encodeFrame s.build 0x01 0x06 S).length = 60 ∧
    (encodeFrame s.build 0x01 0x06 S).take 6 = [s.build.sync0, s.build.sync1, 0x01, 0x06, 0x34, 0x00] ∧
    ((encodeFrame s.build 0x01 0x06 S).drop 6).take 52 = S

/-! ### Dispatch: what each instruction does -/

/-- R184 with R131, R132 and R134: a PVT payload of 92 bytes or more, a POSECEF or a TIMEUTC payload of 20 or more: the
record lands in its slot, and the record event and the frame are queued, in that order (R188). -/
def Obligations.RecordMessagesDecodeRecordForward : Prop :=
  ∀ (P : Bytes) (s : State),
    (92 ≤ P.length → ∃ r, decPvt P = some r ∧
      exec (.pvt P) s = .next { s with
        slotPvt := some r
        outq := s.outq ++ [.record .pvt (P.take 92), .frame (encodeFrame s.build 0x01 0x07 P)] }) ∧
    (20 ≤ P.length → ∃ r, decPosecef P = some r ∧
      exec (.posecef P) s = .next { s with
        slotPos := some r
        outq := s.outq ++ [.record .posecef (P.take 20), .frame (encodeFrame s.build 0x01 0x01 P)] }) ∧
    (20 ≤ P.length → ∃ r, decTimeutc P = some r ∧
      exec (.timeutc P) s = .next { s with
        slotUtc := some r
        outq := s.outq ++ [.record .timeutc (P.take 20), .frame (encodeFrame s.build 0x01 0x21 P)] })

/-- R184, R133, R187: a VELECEF payload of 20 bytes or more: the record lands, the frame is queued, and then the solution
built from the new `slotVEL` is queued if a PVT record is held, else the missing prerequisite is noted. -/
def Obligations.VelecefDecodesForwardsSynthesizes : Prop :=
  ∀ (P : Bytes) (s : State), 20 ≤ P.length →
    ∃ r, decVelecef P = some r ∧
      (∀ V, s.slotPvt = some V →
        exec (.velecef P) s = .next { s with
          slotVel := some r
          outq := s.outq ++ [.record .velecef (P.take 20), .frame (encodeFrame s.build 0x01 0x11 P),
            .frame (encodeFrame s.build 0x01 0x06 (solPayload s.pins.cfgWeek V s.slotPos r))] }) ∧
      (s.slotPvt = none →
        exec (.velecef P) s = .next { s with
          slotVel := some r
          outq := s.outq ++ [.record .velecef (P.take 20), .frame (encodeFrame s.build 0x01 0x11 P)]
          trace := s.trace ++ [.missingPrerequisite] })

/-- R184 on a short payload (D13, D14): forwarded, no record, no slot update, no synthesis. -/
def Obligations.ShortPayloadOnlyForwards : Prop :=
  ∀ (P : Bytes) (s : State),
    (P.length < 92 → exec (.pvt P) s = .next { s with
      trace := s.trace ++ [.payloadTooShort], outq := s.outq ++ [.frame (encodeFrame s.build 0x01 0x07 P)] }) ∧
    (P.length < 20 → exec (.posecef P) s = .next { s with
      trace := s.trace ++ [.payloadTooShort], outq := s.outq ++ [.frame (encodeFrame s.build 0x01 0x01 P)] }) ∧
    (P.length < 20 → exec (.velecef P) s = .next { s with
      trace := s.trace ++ [.payloadTooShort], outq := s.outq ++ [.frame (encodeFrame s.build 0x01 0x11 P)] }) ∧
    (P.length < 20 → exec (.timeutc P) s = .next { s with
      trace := s.trace ++ [.payloadTooShort], outq := s.outq ++ [.frame (encodeFrame s.build 0x01 0x21 P)] })

/-- R135: a frame of class 0x01 runs the decoder of its id and stores what it gives; a frame of another id or class runs
none; so exactly one or none. What a decode stores and notes is R184's and R130's, and that its record event comes before
the other events of the dispatch is D16 (R188, log entry 13). -/
def Obligations.DecoderChosenById : Prop :=
  recId .pvt = 0x07 ∧ recId .posecef = 0x01 ∧ recId .velecef = 0x11 ∧ recId .timeutc = 0x21 ∧
  ∀ (cls id : Byte) (P : Bytes) (s t : State), exec (selectInstr cls id P) s = .next t →
    (∀ T, cls = 0x01 → id = recId T →
      (decRecord T P = none → t.slots = s.slots ∧ t.trace = s.trace ++ [.payloadTooShort]) ∧
      (∀ r, decRecord T P = some r → t.slots = (s.aggUpdate r).slots ∧
        ∃ more, t.outq = s.outq ++ .record T (P.take (minLen T)) :: more)) ∧
    ((cls ≠ 0x01 ∨ ∀ T, id ≠ recId T) → t.slots = s.slots ∧ t.trace = s.trace ∧
      ∀ e ∈ t.outq.drop s.outq.length, ∀ T D, e ≠ .record T D)

/-- R186: any other id of class 0x01 is queued for forwarding, and nothing else changes. -/
def Obligations.NavOtherOnlyForwards : Prop :=
  ∀ (id : Byte) (P : Bytes) (s : State),
    exec (.navOther id P) s = .next { s with outq := s.outq ++ [.frame (encodeFrame s.build 0x01 id P)] }

/-- R184, FOREIGN (D8): forwarded when `cfg_fwd_foreign` is 1, else consumed silently. -/
def Obligations.ForeignFollowsConfiguration : Prop :=
  ∀ (cls id : Byte) (P : Bytes) (s : State),
    (s.pins.cfgFwdForeign = true →
      exec (.foreign cls id P) s = .next { s with outq := s.outq ++ [.frame (encodeFrame s.build cls id P)] }) ∧
    (s.pins.cfgFwdForeign = false → exec (.foreign cls id P) s = .next s)

/-- R160, R164: SOL queues the solution frame when both gating slots are full, else notes the missing prerequisite and
changes nothing. -/
def Obligations.SolQueuesSolutionFrame : Prop :=
  ∀ s : State,
    (∀ V E, s.slotPvt = some V → s.slotVel = some E →
      exec .sol s = .next { s with
        outq := s.outq ++ [.frame (encodeFrame s.build 0x01 0x06 (solPayload s.pins.cfgWeek V s.slotPos E))] }) ∧
    ((s.slotPvt = none ∨ s.slotVel = none) →
      exec .sol s = .next { s with trace := s.trace ++ [.missingPrerequisite] })

/-- The frame of every instruction: what `DISPATCH` never touches, what only its own type may touch, and that the output
queue and the trace only grow at their ends (R184, R150, R151). -/
def Obligations.DispatchFrame : Prop :=
  ∀ (i : Instr) (s t : State), exec i s = .next t →
    t.buf = s.buf ∧ t.phase = s.phase ∧ t.fatalCause = s.fatalCause ∧ t.build = s.build ∧ t.pins = s.pins ∧
    t.source = s.source ∧ t.host = s.host ∧ t.log = s.log ∧
    (∃ more, t.outq = s.outq ++ more ∧ more.length ≤ 3) ∧
    (∃ more, t.trace = s.trace ++ more) ∧
    ((∀ P, i ≠ .pvt P) → t.slotPvt = s.slotPvt) ∧
    ((∀ P, i ≠ .posecef P) → t.slotPos = s.slotPos) ∧
    ((∀ P, i ≠ .velecef P) → t.slotVel = s.slotVel) ∧
    ((∀ P, i ≠ .timeutc P) → t.slotUtc = s.slotUtc)

/-- R187 (D13): of the instructions input can bring, exactly a VELECEF that lands a record runs the synthesis: it queues a
third event or notes the missing prerequisite, and no other does either. -/
def Obligations.SynthesisOnlyOnVelocityRecord : Prop :=
  ∀ (i : Instr) (s t : State), i ≠ .sol → exec i s = .next t →
    ((t.outq.length = s.outq.length + 3 ∨ t.trace = s.trace ++ [.missingPrerequisite]) ↔
      ∃ P, i = .velecef P ∧ 20 ≤ P.length)

/-! ### Controller -/

/-- R183 with the fetch: when nothing wins over `SCAN` and `BUF` starts with the bytes of instruction `i`, the step drops
them, runs `i`, and then lets the host move; with no move to come the step is exactly `exec i`. -/
def Obligations.StepRunsDecodedInstruction : Prop :=
  ∀ (s : State) (i : Instr) (n : Nat), s.pins.Quiet → s.phase = .scan → s.outq = [] →
    decode s.build s.buf = .instr i n →
    (∃ t, exec i { s with buf := s.buf.drop n } = .next t ∧ step s = t.hostMove) ∧
    (s.host = [] → step s = exec i { s with buf := s.buf.drop n })

/-- R183, the two other results: wait for the next chunk with `BUF` kept, or drop `n` bytes and stay in `SCAN`. -/
def Obligations.ScanWaitsOrDiscards : Prop :=
  ∀ s : State, s.pins.Quiet → s.phase = .scan → s.outq = [] → s.host = [] →
    (extract s.build s.buf = .needMoreBytes →
      step s = .next { s with phase := .idle, trace := s.trace ++ [.incompleteFrame] }) ∧
    (∀ n why, extract s.build s.buf = .discard n why →
      step s = .next { s with buf := s.buf.drop n, trace := s.trace ++ [why] })

/-- The words of spec/opcode_table.json (log entry 5): the word placed by `withFetchWord` is decoded and run by the very
next step, as the instruction `decodeTableWord` names. -/
def Obligations.FetchWordRunsTableInstruction : Prop :=
  ∀ (s : State) (nbits w : Nat),
    ∃ i, decodeTableWord nbits w = some i ∧
      step (s.withFetchWord nbits w) = exec i { s.withFetchWord nbits w with buf := [] }

/-- R181 (D6): in `IDLE` a read of at most `READ_MAX` bytes is appended whole, and of a longer one the first `READ_MAX`
bytes, the rest staying offered. -/
def Obligations.IngestAppendsChunk : Prop :=
  ∀ (s : State) (c : Bytes) (rest : List Bytes), s.pins.Quiet → s.phase = .idle → s.host = [] →
    s.source = c :: rest → c ≠ [] →
    (c.length ≤ s.build.readMax →
      step s = .next { s with buf := s.buf ++ c, source := rest, phase := .scan }) ∧
    (s.build.readMax < c.length →
      step s = .next { s with
        buf := s.buf ++ c.take s.build.readMax
        source := c.drop s.build.readMax :: rest
        phase := .scan })

/-- R182: in `IDLE` a scan would only wait, so an empty read loses nothing; with no byte offered the block stays as it is
(R226). That the wait is a step to the same state is the model's rendering (log entry 10). -/
def Obligations.EmptyReadChangesNothing : Prop :=
  ∀ s : State, s.Inv → s.phase = .idle →
    extract s.build s.buf = .needMoreBytes ∧
    (s.pins.Quiet → s.host = [] → (∀ c ∈ s.source, c = []) → step s = .next s)

/-- R189, R190, R191 (D20): the head event is taken when its own port is ready, and else the block waits and drops
nothing; that the wait is a step to the same state is the model's rendering (log entry 10). The output port offers a frame
exactly while one is at the head in `SCAN` without reset (R241, D27; log entry 14): the frame's bytes, head first,
`out_last` on the last and on no other. -/
def Obligations.EmitTakesHeadOrWaits : Prop :=
  (∀ (s : State) (e : OutEvent) (rest : List OutEvent), s.pins.Quiet → s.phase = .scan → s.host = [] →
    s.outq = e :: rest →
    (s.pins.readyFor e = true → step s = .next { s with outq := rest, log := s.log ++ [e.toObs] }) ∧
    (s.pins.readyFor e = false → step s = .next s) ∧
    (∀ F, e = .frame F → s.pins.readyFor e = s.pins.outReady ∧ s.outOffer = some (frameBeats F) ∧
      s.recOffer = none) ∧
    (∀ T D, e = .record T D → s.pins.readyFor e = s.pins.recReady ∧ s.outOffer = none)) ∧
  (∀ (s : State) (beats : List (Byte × Bool)), s.outOffer = some beats ↔
    s.pins.rst = false ∧ s.phase = .scan ∧ ∃ F rest, s.outq = .frame F :: rest ∧ beats = frameBeats F) ∧
  ∀ F : Bytes, (frameBeats F).map Prod.fst = F ∧
    ∀ i, i < F.length → (frameBeats F)[i]?.map Prod.snd = some (decide (i + 1 = F.length))

/-- R190: a record event is one transfer when `rec_ready` is 1: `rec_type` and `rec_data` of the event on the port, the
event observed, the queue's tail left. An instruction queues one record event if it decodes a payload of its type's
length, and else none. The packing of the data is D26, the record's place before the frames D16 (R188, log entry 13), and
the wait as a step to the same state log entry 10. -/
def Obligations.RecordEventEmitted : Prop :=
  (∀ (s : State) (T : RecType) (D : Bytes) (rest : List OutEvent), s.pins.Quiet → s.phase = .scan → s.host = [] →
    s.outq = .record T D :: rest →
    s.recOffer = some (recTypeCode T, recData D) ∧
    (s.pins.recReady = true → step s = .next { s with outq := rest, log := s.log ++ [.record T D] }) ∧
    (s.pins.recReady = false → step s = .next s)) ∧
  ∀ (i : Instr) (s t : State), exec i s = .next t →
    ∃ records frames, t.outq = s.outq ++ records ++ frames ∧ (∀ e ∈ frames, ∃ F, e = .frame F) ∧
      (∀ T P, i = selectInstr 0x01 (recId T) P → minLen T ≤ P.length →
        records = [.record T (P.take (minLen T))]) ∧
      ((∀ T P, i = selectInstr 0x01 (recId T) P → P.length < minLen T) → records = [])

/-- R216, R215, R220 (D18): a fatal report in `IDLE` or `SCAN` enters `FATAL` at the next step, `SINK` winning a tie; the
pending events are dropped unlogged and `BUF` and the slots stay. -/
def Obligations.FatalReportEntersFatal : Prop :=
  ∀ s : State, s.pins.rst = false → s.phase ≠ .fatal → s.host = [] →
    (s.pins.sinkFatal = true → step s = .next { s with
      phase := .fatal, fatalCause := .sink, outq := [], log := s.log ++ [.fatal .sink],
      trace := s.trace ++ [.transportFatalSink] }) ∧
    (s.pins.sinkFatal = false → s.pins.srcFatal = true → step s = .next { s with
      phase := .fatal, fatalCause := .source, outq := [], log := s.log ++ [.fatal .source],
      trace := s.trace ++ [.transportFatalSource] })

/-- R211, R212: only a transport report enters `FATAL`; no input byte does. -/
def Obligations.FatalEnteredOnlyByReport : Prop :=
  ∀ s t : State, s.phase ≠ .fatal → step s = .next t → t.phase = .fatal →
    s.pins.rst = false ∧
    ((s.pins.sinkFatal = true ∧ t.fatalCause = .sink) ∨
      (s.pins.sinkFatal = false ∧ s.pins.srcFatal = true ∧ t.fatalCause = .source))

/-- R218, R221, R192 (D18, D6): in `FATAL` without reset nothing of the block changes, a second report included, and no
byte is taken from the input port; the host may only offer more. The step is the model's rendering of the wait (log
entry 10). -/
def Obligations.FatalHoldsUntilReset : Prop :=
  ∀ s t : State, s.phase = .fatal → s.pins.rst = false → step s = .next t →
    t.phase = .fatal ∧ t.fatalCause = s.fatalCause ∧ t.buf = s.buf ∧ t.slotPvt = s.slotPvt ∧
    t.slotPos = s.slotPos ∧ t.slotVel = s.slotVel ∧ t.slotUtc = s.slotUtc ∧ t.outq = s.outq ∧
    t.log = s.log ∧ t.trace = s.trace ∧ (s.host = [] → t.source = s.source) ∧ s.source <+: t.source

/-- R240 (D27): reset, in every phase and over every other input, gives the eight elements their values of R34 and leaves
the host's side and the observation. -/
def Obligations.ResetClearsTheBlock : Prop :=
  ∀ s : State, s.pins.rst = true → s.host = [] →
    step s = .next { s with
      buf := [], slotPvt := none, slotPos := none, slotVel := none, slotUtc := none, outq := [],
      fatalCause := .none, phase := .idle }

/-- R34 (D27): the state after reset, its eight elements and its ports. That `in_ready` is 1 rests on `rst` being 0 among
the pin levels the model gives `State.reset` (log entry 4). -/
def Obligations.ResetStateValues : Prop :=
  State.reset.buf = [] ∧ State.reset.slotPvt = none ∧ State.reset.slotPos = none ∧ State.reset.slotVel = none ∧
  State.reset.slotUtc = none ∧ State.reset.phase = .idle ∧ State.reset.fatalCause = .none ∧ State.reset.outq = [] ∧
  State.reset.inReady = true ∧ State.reset.outOffer = none ∧ State.reset.recOffer = none ∧
  State.reset.fatalPort = false

/-- The invariant of R24, R27, R28, R63, R185 and R216 holds after reset. -/
def Obligations.ResetMeetsInv : Prop := State.reset.Inv

/-- The invariant of R24, R27, R28, R63, R185 and R216 is kept by every step. -/
def Obligations.StepKeepsInv : Prop := ∀ s t : State, s.Inv → step s = .next t → t.Inv

/-- R24 and R63 (D7): in `IDLE` at most 65542 bytes are held, so a chunk always fits. -/
def Obligations.BufNeverOverflows : Prop :=
  ∀ s : State, s.Inv → s.buf.length ≤ s.build.bufCap ∧
    (s.phase = .idle → s.buf.length ≤ 65542 ∧
      ∀ c rest, takeChunk s.build.readMax s.source = some (c, rest) →
        1 ≤ c.length ∧ c.length ≤ s.build.readMax ∧ (s.buf ++ c).length ≤ s.build.bufCap)

/-- R212: no state and no byte stops the block; a step is refused only for the host's change of the configuration
(log entry 8). That nothing faults is the model's empty type of faults (log entry 11), and that there is always a next
state counts a wait and `FATAL` as steps to the same state (log entry 10). -/
def Obligations.NoInputStopsTheBlock : Prop :=
  ∀ s : State,
    (∀ f, step s ≠ .fault f) ∧
    (∀ r, step s = .refused r → r = .configChangedWhileRunning ∧
      ∃ m rest, s.host = m :: rest ∧ m.configLegal s.pins = false) ∧
    (s.host = [] → ∃ t, step s = .next t)

/-- R7, R29: the build constants never change, and the configuration inputs do not change into a state with `rst` at 0. -/
def Obligations.ConfigurationHeldBetweenResets : Prop :=
  ∀ s t : State, step s = .next t →
    t.build = s.build ∧
    (t.pins.rst = false → t.pins.cfgWeek = s.pins.cfgWeek ∧ t.pins.cfgFwdForeign = s.pins.cfgFwdForeign)

/-- R186 with R59 and R188: the scan that extracts a message of class 0x01, of any id and payload length, decides on its
frame once, byte for byte as received, after at most one record and before at most one SOL frame; with both ports ready
all of it is emitted, in that order, within four steps, before the next scan. The place of the record is D16; that a short
payload and an input of id 0x06 are forwarded is D14 and D25 (log entry 13). -/
def Obligations.Class01ForwardedOnceUnchanged : Prop :=
  ∀ (s : State) (id : Byte) (P : Bytes) (n : Nat), s.pins.Quiet → s.phase = .scan → s.outq = [] →
    extract s.build s.buf = .frame 0x01 id P n →
    ∃ records sols,
      (records = [] ∨ ∃ T, records = [.record T (P.take (minLen T))] ∧ id = recId T ∧ minLen T ≤ P.length) ∧
      (sols = [] ∨ ∃ S, S.length = 52 ∧ sols = [.frame (encodeFrame s.build 0x01 0x06 S)] ∧ id = 0x11) ∧
      (∀ t, step s = .next t → t.log = s.log ∧
        t.decided = s.decided ++ records ++ [.frame (s.buf.take n)] ++ sols) ∧
      (s.Draining → ∃ k t, k ≤ 4 ∧ run k s = .next t ∧ t.phase = .scan ∧ t.outq = [] ∧ t.buf = s.buf.drop n ∧
        t.log = s.log ++ records ++ [.frame (s.buf.take n)] ++ sols)

/-- R59, R185, R191: short of a reset or a fatal report, what has been observed or decided stays, in its order: a step only
adds at the end. The observation (R35) only grows in every step whatever, by at most one entry. -/
def Obligations.NoEventLostOrReordered : Prop :=
  ∀ s t : State, step s = .next t →
    (s.pins.Quiet → s.decided <+: t.decided) ∧ ∃ more, t.log = s.log ++ more ∧ more.length ≤ 1

/-- R116, R183, R194: with the ports ready and nothing reported, a scan comes back to `IDLE` within `|BUF| + 1` steps, with
no event pending and only the beginning of a frame held. -/
def Obligations.ScanReturnsToIdle : Prop :=
  ∀ s : State, s.Draining → s.phase = .scan → s.outq = [] →
    ∃ k t, k ≤ s.buf.length + 1 ∧ run k s = .next t ∧ t.phase = .idle ∧ t.outq = [] ∧ HeldPart t.build t.buf

/-- R246: where no chunk ends with `SYNC0` before one that begins with `SYNC1`, a run over the chunks observes the same
events, and leaves the same `BUF` and slots, as the scan of the whole stream as one buffer. -/
def Obligations.ChunkingDoesNotMatter : Prop :=
  ∀ (s : State) (chunks : List Bytes), s.Draining → s.phase = .idle → s.outq = [] → s.buf = [] → s.source = [] →
    (∀ c ∈ chunks, c ≠ [] ∧ c.length ≤ s.build.readMax) → NoSplitMarker s.build chunks →
    ∃ n m t u, run n { s with source := chunks } = .next t ∧
      run m { s with phase := .scan, buf := chunks.flatten } = .next u ∧
      t.phase = .idle ∧ t.source = [] ∧ u.phase = .idle ∧
      t.log = u.log ∧ t.buf = u.buf ∧ t.slotPvt = u.slotPvt ∧ t.slotPos = u.slotPos ∧ t.slotVel = u.slotVel ∧
      t.slotUtc = u.slotUtc

/-- R25: `slotUTC` is written and never read: two machines that differ in it alone take the same steps and differ in it
alone after. -/
def Obligations.UtcSlotNeverRead : Prop :=
  ∀ (s t : State) (u : Option TimeutcRecord), step s = .next t →
    ∃ v, step { s with slotUtc := u } = .next { t with slotUtc := v }

/-- R23 (and R240): `BUF` only grows at its tail, by an ingested chunk, or loses bytes at its head, by a discard or an
extracted frame; only reset empties it otherwise. -/
def Obligations.BufChangesOnlyAtItsEnds : Prop :=
  ∀ s t : State, step s = .next t →
    t.buf = s.buf ∨
    (s.pins.rst = true ∧ t.buf = []) ∨
    (s.phase = .idle ∧ ∃ c rest, takeChunk s.build.readMax s.source = some (c, rest) ∧ t.buf = s.buf ++ c) ∨
    (s.phase = .scan ∧ ∃ n why, extract s.build s.buf = .discard n why ∧ t.buf = s.buf.drop n) ∨
    (s.phase = .scan ∧ ∃ cls id P, extract s.build s.buf = .frame cls id P (P.length + 8) ∧
      t.buf = s.buf.drop (P.length + 8))

/-- The host's side of a step (log entry 1): its next move sets the pin levels and adds the reads it offers; with no move
left the levels hold. A change of `cfg_week` or `cfg_fwd_foreign` that comes with `rst` at 0 has no step (R29, R251,
93_implementation_defined.md I11; log entry 8). -/
def Obligations.HostMoveSetsPinsOrIsRefused : Prop :=
  ∀ s : State,
    (s.host = [] → s.hostMove = .next s) ∧
    ∀ m rest, s.host = m :: rest →
      (m.pins.rst = true ∨ (m.pins.cfgWeek = s.pins.cfgWeek ∧ m.pins.cfgFwdForeign = s.pins.cfgFwdForeign) →
        s.hostMove = .next { s with pins := m.pins, source := s.source ++ m.offer, host := rest }) ∧
      (m.pins.rst = false →
        (m.pins.cfgWeek ≠ s.pins.cfgWeek ∨ m.pins.cfgFwdForeign ≠ s.pins.cfgFwdForeign) →
        step s = .refused .configChangedWhileRunning)

/-! ### Ports -/

/-- R32 (D26): byte j of a record in bits 8j+7..8j of `rec_data`, and zero above. -/
def Obligations.RecordPacking : Prop :=
  ∀ D : Bytes, D.length ≤ 92 →
    (∀ j, j < D.length → (recData D).extractLsb' (8 * j) 8 = byteAt D j) ∧
    (∀ i, 8 * D.length ≤ i → (recData D).getLsbD i = false)

/-- R192, R221, R241 and R28: `in_ready` exactly in `IDLE` without reset; every port quiet during reset; only `fatal` and
its cause driven in `FATAL`; and the cause code 0b11 never driven. -/
def Obligations.PortsFollowPhase : Prop :=
  ∀ s : State,
    (s.inReady = true ↔ s.phase = .idle ∧ s.pins.rst = false) ∧
    (s.pins.rst = true → s.inReady = false ∧ s.outOffer = none ∧ s.recOffer = none ∧ s.fatalPort = false ∧
      s.fatalCausePort = 0b00) ∧
    (s.pins.rst = false → s.phase = .fatal → s.inReady = false ∧ s.outOffer = none ∧ s.recOffer = none ∧
      s.fatalPort = true ∧ s.fatalCausePort = causeCode s.fatalCause) ∧
    (s.pins.rst = false → (s.fatalPort = true ↔ s.phase = .fatal)) ∧
    s.fatalCausePort ≠ 0b11
end

