-- ==== Sys2Proof/Laws/Bytes.lean ====
section
/-! SUPPORT. Laws of the byte-sequence accesses: one byte, multi-byte reads, multi-byte writes (20_memory.md R52, R53). -/

namespace Sys2Proof

/-! ### One byte -/

theorem byteAt_of_lt {B : Bytes} {i : Nat} (h : i < B.length) : byteAt B i = B[i] := by
  simp [byteAt, List.getD, h]

theorem byteAt_of_getElem? {B : Bytes} {i : Nat} {x : Byte} (h : B[i]? = some x) : byteAt B i = x := by
  simp [byteAt, List.getD, h]

@[simp] theorem byteAt_cons_zero (x : Byte) (B : Bytes) : byteAt (x :: B) 0 = x := rfl

/-- The free value of a read past the end depends on the index, so the index must be inside. -/
theorem byteAt_cons_succ (x : Byte) {B : Bytes} {i : Nat} (h : i < B.length) :
    byteAt (x :: B) (i + 1) = byteAt B i := by
  rw [byteAt_of_lt h, byteAt_of_lt (by simpa using h)]; rfl

theorem byteAt_append_left {A : Bytes} (B : Bytes) {i : Nat} (h : i < A.length) :
    byteAt (A ++ B) i = byteAt A i := by
  rw [byteAt_of_lt h, byteAt_of_lt (by simp; omega), List.getElem_append_left h]

theorem byteAt_append_right (A : Bytes) {B : Bytes} {i : Nat} (h : i < B.length) :
    byteAt (A ++ B) (A.length + i) = byteAt B i := by
  rw [byteAt_of_lt h, byteAt_of_lt (by simp; omega)]
  simp

theorem byteAt_drop {B : Bytes} {k i : Nat} (h : k + i < B.length) : byteAt (B.drop k) i = byteAt B (k + i) := by
  rw [byteAt_of_lt h, byteAt_of_lt (by simp; omega)]; simp

theorem byteAt_take {B : Bytes} {k i : Nat} (hk : i < k) (h : i < B.length) : byteAt (B.take k) i = byteAt B i := by
  rw [byteAt_of_lt h, byteAt_of_lt (by simp; omega)]; simp

theorem byteAt_set_self {B : Bytes} {k : Nat} (x : Byte) (h : k < B.length) : byteAt (B.set k x) k = x := by
  rw [byteAt_of_lt (by simpa using h)]; simp

theorem byteAt_set_ne {B : Bytes} {k i : Nat} (x : Byte) (hne : k ≠ i) (h : i < B.length) :
    byteAt (B.set k x) i = byteAt B i := by
  rw [byteAt_of_lt h, byteAt_of_lt (by simpa using h)]; simp [hne]

/-- Two sequences of one length with the same bytes are one sequence. -/
theorem bytes_ext {A B : Bytes} (hl : A.length = B.length) (h : ∀ i, i < A.length → byteAt A i = byteAt B i) :
    A = B := by
  apply List.ext_getElem hl
  intro i h1 h2
  have := h i h1
  rwa [byteAt_of_lt h1, byteAt_of_lt h2] at this

/-! ### Multi-byte reads -/

@[simp] theorem memRead_zero (B : Bytes) (off : Nat) : memRead B off 0 = 0 := rfl

theorem memRead_succ (B : Bytes) (off n : Nat) :
    memRead B off (n + 1) = (byteAt B off).toNat + 256 * memRead B (off + 1) n := rfl

theorem memRead_lt (B : Bytes) (off n : Nat) : memRead B off n < 256 ^ n := by
  induction n generalizing off with
  | zero => simp
  | succ n ih =>
    have := ih (off + 1)
    have hb := (byteAt B off).isLt
    rw [memRead_succ, Nat.pow_succ]
    omega

/-- A read depends only on the bytes it covers. -/
theorem memRead_congr {A B : Bytes} {a b n : Nat} (h : ∀ j, j < n → byteAt A (a + j) = byteAt B (b + j)) :
    memRead A a n = memRead B b n := by
  induction n generalizing a b with
  | zero => rfl
  | succ n ih =>
    have h0 := h 0 (by omega)
    rw [memRead_succ, memRead_succ, ih (a := a + 1) (b := b + 1)]
    · simp only [Nat.add_zero] at h0; rw [h0]
    · intro j hj
      have := h (j + 1) (by omega)
      rwa [show a + (j + 1) = a + 1 + j by omega, show b + (j + 1) = b + 1 + j by omega] at this

theorem memRead_append_left {A : Bytes} (B : Bytes) {off n : Nat} (h : off + n ≤ A.length) :
    memRead (A ++ B) off n = memRead A off n :=
  memRead_congr fun _ hj => byteAt_append_left B (by omega)

theorem memRead_take {B : Bytes} {k off n : Nat} (hk : off + n ≤ k) (h : off + n ≤ B.length) :
    memRead (B.take k) off n = memRead B off n :=
  memRead_congr fun _ hj => byteAt_take (by omega) (by omega)

/-! ### Little-endian bytes of a value -/

@[simp] theorem leBytes_length (n v : Nat) : (leBytes n v).length = n := by
  induction n generalizing v with
  | zero => rfl
  | succ n ih => simp [leBytes, ih]

@[simp] theorem le16_length (v : Nat) : (le16 v).length = 2 := leBytes_length 2 v

/-- Reading the bytes of a value gives the value, cut to their width. -/
theorem memRead_leBytes (n v : Nat) : memRead (leBytes n v) 0 n = v % 256 ^ n := by
  induction n generalizing v with
  | zero => simp [Nat.mod_one]
  | succ n ih =>
    have h1 : memRead (leBytes (n + 1) v) 1 n = memRead (leBytes n (v / 256)) 0 n :=
      memRead_congr fun j hj => by
        rw [show 1 + j = j + 1 by omega, leBytes, byteAt_cons_succ _ (by simpa using hj)]; simp
    rw [memRead_succ, h1, ih, leBytes, byteAt_cons_zero, BitVec.toNat_ofNat, Nat.pow_succ' (n := n), Nat.mod_mul]

/-- The bytes of a value read from a sequence are those bytes. -/
theorem leBytes_memRead {B : Bytes} {off n : Nat} (h : off + n ≤ B.length) :
    leBytes n (memRead B off n) = (B.drop off).take n := by
  induction n generalizing off with
  | zero => simp [leBytes]
  | succ n ih =>
    have hb := (byteAt B off).isLt
    have hd : (B.drop off) = byteAt B off :: B.drop (off + 1) := by
      rw [byteAt_of_lt (by omega)]; exact List.drop_eq_getElem_cons (by omega)
    rw [memRead_succ, leBytes, hd, List.take_succ_cons]
    congr 1
    · apply BitVec.eq_of_toNat_eq
      rw [BitVec.toNat_ofNat]; omega
    · rw [← ih (by omega)]; congr 1; omega

/-! ### Writes -/

theorem memWrite_length {B : Bytes} {off n : Nat} (v : Nat) (h : off + n ≤ B.length) :
    (memWrite B off n v).length = B.length := by
  simp [memWrite]; omega

/-- A write leaves every byte outside it alone. -/
theorem byteAt_memWrite_ne {B : Bytes} {off n k : Nat} (v : Nat) (h : off + n ≤ B.length) (hk : k < B.length)
    (hne : k < off ∨ off + n ≤ k) : byteAt (memWrite B off n v) k = byteAt B k := by
  unfold memWrite
  rcases hne with hlt | hge
  · rw [List.append_assoc, byteAt_append_left _ (by simp; omega), byteAt_take hlt hk]
  · have hl : (B.take off ++ leBytes n v).length = off + n := by simp; omega
    have := byteAt_append_right (B.take off ++ leBytes n v) (B := B.drop (off + n)) (i := k - (off + n)) (by simp; omega)
    rw [hl, show off + n + (k - (off + n)) = k by omega] at this
    rw [this, byteAt_drop (by omega), show off + n + (k - (off + n)) = k by omega]

/-- The bytes inside a write are those of the value. -/
theorem byteAt_memWrite_eq {B : Bytes} {off n j : Nat} (v : Nat) (h : off + n ≤ B.length) (hj : j < n) :
    byteAt (memWrite B off n v) (off + j) = byteAt (leBytes n v) j := by
  unfold memWrite
  have hl : (B.take off).length = off := by simp; omega
  have := byteAt_append_right (B.take off) (B := leBytes n v) (i := j) (by simpa using hj)
  rw [hl] at this
  rw [byteAt_append_left _ (by simp; omega), this]

/-- A read of exactly what was written gives the value, cut to its width. -/
theorem memRead_memWrite_same {B : Bytes} {off n : Nat} (v : Nat) (h : off + n ≤ B.length) :
    memRead (memWrite B off n v) off n = v % 256 ^ n := by
  rw [← memRead_leBytes]
  exact memRead_congr fun j hj => by rw [byteAt_memWrite_eq v h hj, Nat.zero_add]

/-- A read apart from a write gives what it gave before. -/
theorem memRead_memWrite_other {B : Bytes} {off n a m : Nat} (v : Nat) (h : off + n ≤ B.length)
    (ha : a + m ≤ B.length) (hd : a + m ≤ off ∨ off + n ≤ a) :
    memRead (memWrite B off n v) a m = memRead B a m :=
  memRead_congr fun j hj => byteAt_memWrite_ne v h (by omega) (by omega)

end Sys2Proof
end

