-- ==== Sys2Proof/Laws/Codec.lean ====
section
/-! SUPPORT. Laws of the checksum, the encoder, the marker search and the parser: what each can answer, said once. -/

namespace Sys2Proof

open Sys2Proof.Machine

/-! ### Checksum -/

@[simp] theorem chkCompute_nil : chkCompute [] = (0, 0) := rfl

theorem chkCompute_append (A B : Bytes) : chkCompute (A ++ B) = B.foldl chkStep (chkCompute A) := by
  simp [chkCompute, List.foldl_append]

theorem chkCompute_concat (A : Bytes) (x : Byte) :
    chkCompute (A ++ [x]) = ((chkCompute A).1 + x, (chkCompute A).2 + ((chkCompute A).1 + x)) := by
  rw [chkCompute_append]; rfl

/-! ### Encoder -/

theorem encodeFrame_eq_cons (bd : Build) (cls id : Byte) (P : Bytes) :
    encodeFrame bd cls id P = bd.sync0 :: bd.sync1 :: cls :: id :: BitVec.ofNat 8 P.length ::
      BitVec.ofNat 8 (P.length / 256) :: (P ++ [(chkFrame cls id P).1, (chkFrame cls id P).2]) := by
  simp [encodeFrame, le16, leBytes]

@[simp] theorem encodeFrame_length (bd : Build) (cls id : Byte) (P : Bytes) :
    (encodeFrame bd cls id P).length = P.length + 8 := by
  simp [encodeFrame_eq_cons]

/-- The length field of an encoded frame reads the payload's length. -/
theorem memRead_encodeFrame (bd : Build) (cls id : Byte) {P : Bytes} (T : Bytes) (h : P.length ≤ 65535) :
    memRead (encodeFrame bd cls id P ++ T) 4 2 = P.length := by
  rw [encodeFrame_eq_cons]
  have h4 : byteAt (bd.sync0 :: bd.sync1 :: cls :: id :: BitVec.ofNat 8 P.length ::
      BitVec.ofNat 8 (P.length / 256) :: (P ++ [(chkFrame cls id P).1, (chkFrame cls id P).2]) ++ T) 4
        = BitVec.ofNat 8 P.length := rfl
  have h5 : byteAt (bd.sync0 :: bd.sync1 :: cls :: id :: BitVec.ofNat 8 P.length ::
      BitVec.ofNat 8 (P.length / 256) :: (P ++ [(chkFrame cls id P).1, (chkFrame cls id P).2]) ++ T) 5
        = BitVec.ofNat 8 (P.length / 256) := rfl
  rw [memRead_succ, memRead_succ, memRead_zero, h4, h5]
  simp only [BitVec.toNat_ofNat]
  omega

/-! ### Marker search -/

theorem startsWithMarker_cons_cons (bd : Build) (x y : Byte) (B : Bytes) :
    StartsWithMarker bd (x :: y :: B) ↔ x = bd.sync0 ∧ y = bd.sync1 := by
  simp [StartsWithMarker]

theorem two_le_of_startsWithMarker {bd : Build} {B : Bytes} (h : StartsWithMarker bd B) : 2 ≤ B.length := by
  have := congrArg List.length h
  simp at this; omega

theorem startsWithMarker_append {bd : Build} {B : Bytes} (h : StartsWithMarker bd B) (T : Bytes) :
    StartsWithMarker bd (B ++ T) := by
  have := two_le_of_startsWithMarker h
  unfold StartsWithMarker at *
  rw [List.take_append_of_le_length this, h]

theorem encodeFrame_startsWithMarker (bd : Build) (cls id : Byte) (P : Bytes) :
    StartsWithMarker bd (encodeFrame bd cls id P) := by
  simp [encodeFrame_eq_cons, startsWithMarker_cons_cons]

theorem findMarker_eq_zero_iff (bd : Build) (B : Bytes) :
    findMarker bd B = some 0 ↔ StartsWithMarker bd B := by
  match B with
  | [] => simp [findMarker, StartsWithMarker]
  | [x] => simp [findMarker, StartsWithMarker]
  | x :: y :: rest =>
    rw [startsWithMarker_cons_cons, findMarker]
    split
    · simp [*]
    · simp [*]

/-- One byte on: the marker of a buffer that does not start with one. -/
theorem findMarker_cons_of_not {bd : Build} {x : Byte} {B : Bytes} (h : ¬ StartsWithMarker bd (x :: B)) :
    findMarker bd (x :: B) = (findMarker bd B).map (· + 1) := by
  match B with
  | [] => simp [findMarker]
  | y :: rest =>
    rw [startsWithMarker_cons_cons] at h
    rw [findMarker, if_neg h]

/-- A marker lies inside the buffer, both its bytes. -/
theorem findMarker_lt {bd : Build} {B : Bytes} {k : Nat} (h : findMarker bd B = some k) : k + 2 ≤ B.length := by
  induction B generalizing k with
  | nil => simp [findMarker] at h
  | cons x B ih =>
    by_cases hs : StartsWithMarker bd (x :: B)
    · have := (findMarker_eq_zero_iff bd _).2 hs
      have := two_le_of_startsWithMarker hs
      simp_all
      omega
    · rw [findMarker_cons_of_not hs] at h
      cases hm : findMarker bd B with
      | none => simp [hm] at h
      | some j => have := ih hm; simp [hm] at h; simp; omega

/-! ### Parser -/

/-- Everything `EXTRACT` can answer (R112). -/
theorem extract_cases (bd : Build) (B : Bytes) :
    (HeldPart bd B ∧ extract bd B = .needMoreBytes) ∨
    (B ≠ [] ∧ findMarker bd B = none ∧ extract bd B = .discard B.length .noSync) ∨
    (∃ k, findMarker bd B = some (k + 1) ∧ extract bd B = .discard (k + 1) .noSync) ∨
    (StartsWithMarker bd B ∧ 6 ≤ B.length ∧ memRead B 4 2 + 8 ≤ B.length ∧
      (((byteAt B (6 + memRead B 4 2), byteAt B (7 + memRead B 4 2))
          = chkFrame (byteAt B 2) (byteAt B 3) ((B.drop 6).take (memRead B 4 2)) ∧
        extract bd B = .frame (byteAt B 2) (byteAt B 3) ((B.drop 6).take (memRead B 4 2)) (memRead B 4 2 + 8)) ∨
       ((byteAt B (6 + memRead B 4 2), byteAt B (7 + memRead B 4 2))
          ≠ chkFrame (byteAt B 2) (byteAt B 3) ((B.drop 6).take (memRead B 4 2)) ∧
        extract bd B = .discard 1 .checksumMismatch))) := by
  by_cases hnil : B = []
  · subst hnil; exact .inl ⟨.inl rfl, rfl⟩
  have hempty : B.isEmpty = false := by cases B <;> simp_all
  match hm : findMarker bd B with
  | none => exact .inr (.inl ⟨hnil, rfl, by simp [extract, hempty, hm]⟩)
  | some (k + 1) => exact .inr (.inr (.inl ⟨k, rfl, by simp [extract, hempty, hm]⟩))
  | some 0 =>
    have hs := (findMarker_eq_zero_iff bd B).1 hm
    by_cases h6 : B.length < 6
    · exact .inl ⟨.inr ⟨hs, .inl h6⟩, by simp [extract, hempty, hm, h6]⟩
    by_cases hl : B.length < memRead B 4 2 + 8
    · exact .inl ⟨.inr ⟨hs, .inr hl⟩, by simp [extract, hempty, hm, h6, hl]⟩
    refine .inr (.inr (.inr ⟨hs, by omega, by omega, ?_⟩))
    by_cases hc : (byteAt B (6 + memRead B 4 2), byteAt B (7 + memRead B 4 2))
        = chkFrame (byteAt B 2) (byteAt B 3) ((B.drop 6).take (memRead B 4 2))
    · exact .inl ⟨hc, by simp only [extract, hempty, hm, h6, hl, hc]; simp⟩
    · exact .inr ⟨hc, by simp only [extract, hempty, hm, h6, hl, hc]; simp⟩

/-- A discard is of at least one byte, all of them there. -/
theorem extract_discard_bounds {bd : Build} {B : Bytes} {n : Nat} {why : Condition}
    (h : extract bd B = .discard n why) : 1 ≤ n ∧ n ≤ B.length := by
  rcases extract_cases bd B with ⟨_, he⟩ | ⟨hne, _, he⟩ | ⟨k, hk, he⟩ | ⟨_, _, _, ⟨_, he⟩ | ⟨_, he⟩⟩ <;>
    rw [he] at h <;> simp at h
  · have := List.length_pos_iff.2 hne; omega
  · have := findMarker_lt hk; omega
  · omega

/-- What an extracted frame is: the bytes at the head of the buffer, cut at their own length field. -/
theorem extract_frame_parts {bd : Build} {B : Bytes} {cls id : Byte} {P : Bytes} {n : Nat}
    (h : extract bd B = .frame cls id P n) :
    StartsWithMarker bd B ∧ n ≤ B.length ∧ n = P.length + 8 ∧ P.length = memRead B 4 2 ∧
      cls = byteAt B 2 ∧ id = byteAt B 3 ∧ P = (B.drop 6).take (memRead B 4 2) ∧
      (byteAt B (6 + P.length), byteAt B (7 + P.length)) = chkFrame cls id P := by
  rcases extract_cases bd B with ⟨_, he⟩ | ⟨hne, _, he⟩ | ⟨k, hk, he⟩ | ⟨hs, h6, hl, ⟨hc, he⟩ | ⟨_, he⟩⟩ <;>
    rw [he] at h <;> simp at h
  obtain ⟨rfl, rfl, rfl, rfl⟩ := h
  have hlen : ((B.drop 6).take (memRead B 4 2)).length = memRead B 4 2 := by simp; omega
  exact ⟨hs, hl, by rw [hlen], hlen, rfl, rfl, rfl, by rw [hlen]; exact hc⟩

/-- `EXTRACT` waits exactly on what may be held in `IDLE` (R24, R116). -/
theorem extract_eq_needMoreBytes {bd : Build} {B : Bytes} (h : extract bd B = .needMoreBytes) : HeldPart bd B := by
  rcases extract_cases bd B with ⟨hh, _⟩ | ⟨_, _, he⟩ | ⟨k, _, he⟩ | ⟨_, _, _, ⟨_, he⟩ | ⟨_, he⟩⟩
  · exact hh
  all_goals rw [he] at h; simp at h

/-! ### Decoder -/

theorem decode_eq_instr {bd : Build} {B : Bytes} {i : Instr} {n : Nat} (h : decode bd B = .instr i n) :
    ∃ cls id P, extract bd B = .frame cls id P n ∧ i = selectInstr cls id P := by
  unfold decode at h
  split at h <;> simp at h
  exact ⟨_, _, _, by rw [← h.2]; assumption, h.1.symm⟩

theorem decode_eq_discard {bd : Build} {B : Bytes} {n : Nat} {why : Condition} (h : decode bd B = .discard n why) :
    extract bd B = .discard n why := by
  unfold decode at h
  split at h <;> simp at h
  rw [← h.1, ← h.2]; assumption

theorem decode_eq_needMoreBytes {bd : Build} {B : Bytes} (h : decode bd B = .needMoreBytes) :
    extract bd B = .needMoreBytes := by
  unfold decode at h
  split at h <;> simp_all

end Sys2Proof
end

