-- ==== Sys2Proof/Laws/State.lean ====
section
/-! SUPPORT. One lemma per field per update of the state: what each named operation writes, and that it leaves every other
field. Later proofs rewrite with these and unfold no record update. -/

namespace Sys2Proof.Machine

variable (s : State)

/-! ### note -/

@[simp] theorem State.note_buf (c : Condition) : (s.note c).buf = s.buf := rfl
@[simp] theorem State.note_slotPvt (c : Condition) : (s.note c).slotPvt = s.slotPvt := rfl
@[simp] theorem State.note_slotPos (c : Condition) : (s.note c).slotPos = s.slotPos := rfl
@[simp] theorem State.note_slotVel (c : Condition) : (s.note c).slotVel = s.slotVel := rfl
@[simp] theorem State.note_slotUtc (c : Condition) : (s.note c).slotUtc = s.slotUtc := rfl
@[simp] theorem State.note_phase (c : Condition) : (s.note c).phase = s.phase := rfl
@[simp] theorem State.note_fatalCause (c : Condition) : (s.note c).fatalCause = s.fatalCause := rfl
@[simp] theorem State.note_outq (c : Condition) : (s.note c).outq = s.outq := rfl
@[simp] theorem State.note_build (c : Condition) : (s.note c).build = s.build := rfl
@[simp] theorem State.note_pins (c : Condition) : (s.note c).pins = s.pins := rfl
@[simp] theorem State.note_source (c : Condition) : (s.note c).source = s.source := rfl
@[simp] theorem State.note_host (c : Condition) : (s.note c).host = s.host := rfl
@[simp] theorem State.note_log (c : Condition) : (s.note c).log = s.log := rfl
@[simp] theorem State.note_trace (c : Condition) : (s.note c).trace = s.trace ++ [c] := rfl

/-! ### setBuf -/

@[simp] theorem State.setBuf_buf (B : Bytes) : (s.setBuf B).buf = B := rfl
@[simp] theorem State.setBuf_slotPvt (B : Bytes) : (s.setBuf B).slotPvt = s.slotPvt := rfl
@[simp] theorem State.setBuf_slotPos (B : Bytes) : (s.setBuf B).slotPos = s.slotPos := rfl
@[simp] theorem State.setBuf_slotVel (B : Bytes) : (s.setBuf B).slotVel = s.slotVel := rfl
@[simp] theorem State.setBuf_slotUtc (B : Bytes) : (s.setBuf B).slotUtc = s.slotUtc := rfl
@[simp] theorem State.setBuf_phase (B : Bytes) : (s.setBuf B).phase = s.phase := rfl
@[simp] theorem State.setBuf_fatalCause (B : Bytes) : (s.setBuf B).fatalCause = s.fatalCause := rfl
@[simp] theorem State.setBuf_outq (B : Bytes) : (s.setBuf B).outq = s.outq := rfl
@[simp] theorem State.setBuf_build (B : Bytes) : (s.setBuf B).build = s.build := rfl
@[simp] theorem State.setBuf_pins (B : Bytes) : (s.setBuf B).pins = s.pins := rfl
@[simp] theorem State.setBuf_source (B : Bytes) : (s.setBuf B).source = s.source := rfl
@[simp] theorem State.setBuf_host (B : Bytes) : (s.setBuf B).host = s.host := rfl
@[simp] theorem State.setBuf_log (B : Bytes) : (s.setBuf B).log = s.log := rfl
@[simp] theorem State.setBuf_trace (B : Bytes) : (s.setBuf B).trace = s.trace := rfl

/-! ### setPhase -/

@[simp] theorem State.setPhase_buf (p : Phase) : (s.setPhase p).buf = s.buf := rfl
@[simp] theorem State.setPhase_slotPvt (p : Phase) : (s.setPhase p).slotPvt = s.slotPvt := rfl
@[simp] theorem State.setPhase_slotPos (p : Phase) : (s.setPhase p).slotPos = s.slotPos := rfl
@[simp] theorem State.setPhase_slotVel (p : Phase) : (s.setPhase p).slotVel = s.slotVel := rfl
@[simp] theorem State.setPhase_slotUtc (p : Phase) : (s.setPhase p).slotUtc = s.slotUtc := rfl
@[simp] theorem State.setPhase_phase (p : Phase) : (s.setPhase p).phase = p := rfl
@[simp] theorem State.setPhase_fatalCause (p : Phase) : (s.setPhase p).fatalCause = s.fatalCause := rfl
@[simp] theorem State.setPhase_outq (p : Phase) : (s.setPhase p).outq = s.outq := rfl
@[simp] theorem State.setPhase_build (p : Phase) : (s.setPhase p).build = s.build := rfl
@[simp] theorem State.setPhase_pins (p : Phase) : (s.setPhase p).pins = s.pins := rfl
@[simp] theorem State.setPhase_source (p : Phase) : (s.setPhase p).source = s.source := rfl
@[simp] theorem State.setPhase_host (p : Phase) : (s.setPhase p).host = s.host := rfl
@[simp] theorem State.setPhase_log (p : Phase) : (s.setPhase p).log = s.log := rfl
@[simp] theorem State.setPhase_trace (p : Phase) : (s.setPhase p).trace = s.trace := rfl

/-! ### push -/

@[simp] theorem State.push_buf (e : OutEvent) : (s.push e).buf = s.buf := rfl
@[simp] theorem State.push_slotPvt (e : OutEvent) : (s.push e).slotPvt = s.slotPvt := rfl
@[simp] theorem State.push_slotPos (e : OutEvent) : (s.push e).slotPos = s.slotPos := rfl
@[simp] theorem State.push_slotVel (e : OutEvent) : (s.push e).slotVel = s.slotVel := rfl
@[simp] theorem State.push_slotUtc (e : OutEvent) : (s.push e).slotUtc = s.slotUtc := rfl
@[simp] theorem State.push_phase (e : OutEvent) : (s.push e).phase = s.phase := rfl
@[simp] theorem State.push_fatalCause (e : OutEvent) : (s.push e).fatalCause = s.fatalCause := rfl
@[simp] theorem State.push_outq (e : OutEvent) : (s.push e).outq = s.outq ++ [e] := rfl
@[simp] theorem State.push_build (e : OutEvent) : (s.push e).build = s.build := rfl
@[simp] theorem State.push_pins (e : OutEvent) : (s.push e).pins = s.pins := rfl
@[simp] theorem State.push_source (e : OutEvent) : (s.push e).source = s.source := rfl
@[simp] theorem State.push_host (e : OutEvent) : (s.push e).host = s.host := rfl
@[simp] theorem State.push_log (e : OutEvent) : (s.push e).log = s.log := rfl
@[simp] theorem State.push_trace (e : OutEvent) : (s.push e).trace = s.trace := rfl

/-! ### pushFrame -/

@[simp] theorem State.pushFrame_buf (cls id : Byte) (P : Bytes) : (s.pushFrame cls id P).buf = s.buf := rfl
@[simp] theorem State.pushFrame_slotPvt (cls id : Byte) (P : Bytes) : (s.pushFrame cls id P).slotPvt = s.slotPvt := rfl
@[simp] theorem State.pushFrame_slotPos (cls id : Byte) (P : Bytes) : (s.pushFrame cls id P).slotPos = s.slotPos := rfl
@[simp] theorem State.pushFrame_slotVel (cls id : Byte) (P : Bytes) : (s.pushFrame cls id P).slotVel = s.slotVel := rfl
@[simp] theorem State.pushFrame_slotUtc (cls id : Byte) (P : Bytes) : (s.pushFrame cls id P).slotUtc = s.slotUtc := rfl
@[simp] theorem State.pushFrame_phase (cls id : Byte) (P : Bytes) : (s.pushFrame cls id P).phase = s.phase := rfl
@[simp] theorem State.pushFrame_fatalCause (cls id : Byte) (P : Bytes) : (s.pushFrame cls id P).fatalCause = s.fatalCause := rfl
@[simp] theorem State.pushFrame_outq (cls id : Byte) (P : Bytes) : (s.pushFrame cls id P).outq = s.outq ++ [.frame (encodeFrame s.build cls id P)] := rfl
@[simp] theorem State.pushFrame_build (cls id : Byte) (P : Bytes) : (s.pushFrame cls id P).build = s.build := rfl
@[simp] theorem State.pushFrame_pins (cls id : Byte) (P : Bytes) : (s.pushFrame cls id P).pins = s.pins := rfl
@[simp] theorem State.pushFrame_source (cls id : Byte) (P : Bytes) : (s.pushFrame cls id P).source = s.source := rfl
@[simp] theorem State.pushFrame_host (cls id : Byte) (P : Bytes) : (s.pushFrame cls id P).host = s.host := rfl
@[simp] theorem State.pushFrame_log (cls id : Byte) (P : Bytes) : (s.pushFrame cls id P).log = s.log := rfl
@[simp] theorem State.pushFrame_trace (cls id : Byte) (P : Bytes) : (s.pushFrame cls id P).trace = s.trace := rfl

/-! ### raiseFatal -/

@[simp] theorem State.raiseFatal_buf (c : FatalCause) : (s.raiseFatal c).buf = s.buf := rfl
@[simp] theorem State.raiseFatal_slotPvt (c : FatalCause) : (s.raiseFatal c).slotPvt = s.slotPvt := rfl
@[simp] theorem State.raiseFatal_slotPos (c : FatalCause) : (s.raiseFatal c).slotPos = s.slotPos := rfl
@[simp] theorem State.raiseFatal_slotVel (c : FatalCause) : (s.raiseFatal c).slotVel = s.slotVel := rfl
@[simp] theorem State.raiseFatal_slotUtc (c : FatalCause) : (s.raiseFatal c).slotUtc = s.slotUtc := rfl
@[simp] theorem State.raiseFatal_phase (c : FatalCause) : (s.raiseFatal c).phase = .fatal := rfl
@[simp] theorem State.raiseFatal_fatalCause (c : FatalCause) : (s.raiseFatal c).fatalCause = c := rfl
@[simp] theorem State.raiseFatal_outq (c : FatalCause) : (s.raiseFatal c).outq = [] := rfl
@[simp] theorem State.raiseFatal_build (c : FatalCause) : (s.raiseFatal c).build = s.build := rfl
@[simp] theorem State.raiseFatal_pins (c : FatalCause) : (s.raiseFatal c).pins = s.pins := rfl
@[simp] theorem State.raiseFatal_source (c : FatalCause) : (s.raiseFatal c).source = s.source := rfl
@[simp] theorem State.raiseFatal_host (c : FatalCause) : (s.raiseFatal c).host = s.host := rfl
@[simp] theorem State.raiseFatal_log (c : FatalCause) : (s.raiseFatal c).log = s.log ++ [.fatal c] := rfl
@[simp] theorem State.raiseFatal_trace (c : FatalCause) : (s.raiseFatal c).trace = s.trace ++ c.conditions := rfl

/-! ### resetBlock -/

@[simp] theorem State.resetBlock_buf : (s.resetBlock).buf = [] := rfl
@[simp] theorem State.resetBlock_slotPvt : (s.resetBlock).slotPvt = none := rfl
@[simp] theorem State.resetBlock_slotPos : (s.resetBlock).slotPos = none := rfl
@[simp] theorem State.resetBlock_slotVel : (s.resetBlock).slotVel = none := rfl
@[simp] theorem State.resetBlock_slotUtc : (s.resetBlock).slotUtc = none := rfl
@[simp] theorem State.resetBlock_phase : (s.resetBlock).phase = .idle := rfl
@[simp] theorem State.resetBlock_fatalCause : (s.resetBlock).fatalCause = .none := rfl
@[simp] theorem State.resetBlock_outq : (s.resetBlock).outq = [] := rfl
@[simp] theorem State.resetBlock_build : (s.resetBlock).build = s.build := rfl
@[simp] theorem State.resetBlock_pins : (s.resetBlock).pins = s.pins := rfl
@[simp] theorem State.resetBlock_source : (s.resetBlock).source = s.source := rfl
@[simp] theorem State.resetBlock_host : (s.resetBlock).host = s.host := rfl
@[simp] theorem State.resetBlock_log : (s.resetBlock).log = s.log := rfl
@[simp] theorem State.resetBlock_trace : (s.resetBlock).trace = s.trace := rfl

/-! ### withFrame -/

@[simp] theorem State.withFrame_buf (F : Bytes) : (s.withFrame F).buf = F := rfl
@[simp] theorem State.withFrame_slotPvt (F : Bytes) : (s.withFrame F).slotPvt = s.slotPvt := rfl
@[simp] theorem State.withFrame_slotPos (F : Bytes) : (s.withFrame F).slotPos = s.slotPos := rfl
@[simp] theorem State.withFrame_slotVel (F : Bytes) : (s.withFrame F).slotVel = s.slotVel := rfl
@[simp] theorem State.withFrame_slotUtc (F : Bytes) : (s.withFrame F).slotUtc = s.slotUtc := rfl
@[simp] theorem State.withFrame_phase (F : Bytes) : (s.withFrame F).phase = .scan := rfl
@[simp] theorem State.withFrame_fatalCause (F : Bytes) : (s.withFrame F).fatalCause = .none := rfl
@[simp] theorem State.withFrame_outq (F : Bytes) : (s.withFrame F).outq = [] := rfl
@[simp] theorem State.withFrame_build (F : Bytes) : (s.withFrame F).build = s.build := rfl
@[simp] theorem State.withFrame_pins (F : Bytes) : (s.withFrame F).pins = { s.pins with rst := false, srcFatal := false, sinkFatal := false } := rfl
@[simp] theorem State.withFrame_source (F : Bytes) : (s.withFrame F).source = s.source := rfl
@[simp] theorem State.withFrame_host (F : Bytes) : (s.withFrame F).host = [] := rfl
@[simp] theorem State.withFrame_log (F : Bytes) : (s.withFrame F).log = s.log := rfl
@[simp] theorem State.withFrame_trace (F : Bytes) : (s.withFrame F).trace = s.trace := rfl

/-! ### aggUpdate: each type writes its own slot (R150, R151) -/

@[simp] theorem State.aggUpdate_buf (r : Record) : (s.aggUpdate r).buf = s.buf := by cases r <;> rfl
@[simp] theorem State.aggUpdate_phase (r : Record) : (s.aggUpdate r).phase = s.phase := by cases r <;> rfl
@[simp] theorem State.aggUpdate_fatalCause (r : Record) : (s.aggUpdate r).fatalCause = s.fatalCause := by cases r <;> rfl
@[simp] theorem State.aggUpdate_outq (r : Record) : (s.aggUpdate r).outq = s.outq := by cases r <;> rfl
@[simp] theorem State.aggUpdate_build (r : Record) : (s.aggUpdate r).build = s.build := by cases r <;> rfl
@[simp] theorem State.aggUpdate_pins (r : Record) : (s.aggUpdate r).pins = s.pins := by cases r <;> rfl
@[simp] theorem State.aggUpdate_source (r : Record) : (s.aggUpdate r).source = s.source := by cases r <;> rfl
@[simp] theorem State.aggUpdate_host (r : Record) : (s.aggUpdate r).host = s.host := by cases r <;> rfl
@[simp] theorem State.aggUpdate_log (r : Record) : (s.aggUpdate r).log = s.log := by cases r <;> rfl
@[simp] theorem State.aggUpdate_trace (r : Record) : (s.aggUpdate r).trace = s.trace := by cases r <;> rfl
@[simp] theorem State.aggUpdate_pvt_slotPvt (r : PvtRecord) : (s.aggUpdate (.pvt r)).slotPvt = some r := rfl
@[simp] theorem State.aggUpdate_pvt_slotPos (r : PvtRecord) : (s.aggUpdate (.pvt r)).slotPos = s.slotPos := rfl
@[simp] theorem State.aggUpdate_pvt_slotVel (r : PvtRecord) : (s.aggUpdate (.pvt r)).slotVel = s.slotVel := rfl
@[simp] theorem State.aggUpdate_pvt_slotUtc (r : PvtRecord) : (s.aggUpdate (.pvt r)).slotUtc = s.slotUtc := rfl
@[simp] theorem State.aggUpdate_posecef_slotPvt (r : PosecefRecord) : (s.aggUpdate (.posecef r)).slotPvt = s.slotPvt := rfl
@[simp] theorem State.aggUpdate_posecef_slotPos (r : PosecefRecord) : (s.aggUpdate (.posecef r)).slotPos = some r := rfl
@[simp] theorem State.aggUpdate_posecef_slotVel (r : PosecefRecord) : (s.aggUpdate (.posecef r)).slotVel = s.slotVel := rfl
@[simp] theorem State.aggUpdate_posecef_slotUtc (r : PosecefRecord) : (s.aggUpdate (.posecef r)).slotUtc = s.slotUtc := rfl
@[simp] theorem State.aggUpdate_velecef_slotPvt (r : VelecefRecord) : (s.aggUpdate (.velecef r)).slotPvt = s.slotPvt := rfl
@[simp] theorem State.aggUpdate_velecef_slotPos (r : VelecefRecord) : (s.aggUpdate (.velecef r)).slotPos = s.slotPos := rfl
@[simp] theorem State.aggUpdate_velecef_slotVel (r : VelecefRecord) : (s.aggUpdate (.velecef r)).slotVel = some r := rfl
@[simp] theorem State.aggUpdate_velecef_slotUtc (r : VelecefRecord) : (s.aggUpdate (.velecef r)).slotUtc = s.slotUtc := rfl
@[simp] theorem State.aggUpdate_timeutc_slotPvt (r : TimeutcRecord) : (s.aggUpdate (.timeutc r)).slotPvt = s.slotPvt := rfl
@[simp] theorem State.aggUpdate_timeutc_slotPos (r : TimeutcRecord) : (s.aggUpdate (.timeutc r)).slotPos = s.slotPos := rfl
@[simp] theorem State.aggUpdate_timeutc_slotVel (r : TimeutcRecord) : (s.aggUpdate (.timeutc r)).slotVel = s.slotVel := rfl
@[simp] theorem State.aggUpdate_timeutc_slotUtc (r : TimeutcRecord) : (s.aggUpdate (.timeutc r)).slotUtc = some r := rfl

/-! ### emit: the head event goes from `OUTQ` to the log (R189, R190) -/

theorem State.emit_cons {e : OutEvent} {rest : List OutEvent} (h : s.outq = e :: rest) :
    s.emit = { s with outq := rest, log := s.log ++ [e.toObs] } := by
  simp [State.emit, h]

theorem State.emit_nil (h : s.outq = []) : s.emit = s := by simp [State.emit, h]

@[simp] theorem State.emit_buf : s.emit.buf = s.buf := by unfold State.emit; split <;> rfl
@[simp] theorem State.emit_slotPvt : s.emit.slotPvt = s.slotPvt := by unfold State.emit; split <;> rfl
@[simp] theorem State.emit_slotPos : s.emit.slotPos = s.slotPos := by unfold State.emit; split <;> rfl
@[simp] theorem State.emit_slotVel : s.emit.slotVel = s.slotVel := by unfold State.emit; split <;> rfl
@[simp] theorem State.emit_slotUtc : s.emit.slotUtc = s.slotUtc := by unfold State.emit; split <;> rfl
@[simp] theorem State.emit_phase : s.emit.phase = s.phase := by unfold State.emit; split <;> rfl
@[simp] theorem State.emit_fatalCause : s.emit.fatalCause = s.fatalCause := by unfold State.emit; split <;> rfl
@[simp] theorem State.emit_build : s.emit.build = s.build := by unfold State.emit; split <;> rfl
@[simp] theorem State.emit_pins : s.emit.pins = s.pins := by unfold State.emit; split <;> rfl
@[simp] theorem State.emit_source : s.emit.source = s.source := by unfold State.emit; split <;> rfl
@[simp] theorem State.emit_host : s.emit.host = s.host := by unfold State.emit; split <;> rfl
@[simp] theorem State.emit_trace : s.emit.trace = s.trace := by unfold State.emit; split <;> rfl
@[simp] theorem State.emit_outq : s.emit.outq = s.outq.tail := by unfold State.emit; split <;> simp_all

end Sys2Proof.Machine
end

