-- ==== Sys2Proof/Laws/Dispatch.lean ====
section
/-! SUPPORT. Laws of the decoders, the synthesizer and the meanings: what each can do, said once. -/

namespace Sys2Proof.Machine

/-! ### The typed reads of a layout row are the decoders' field reads (R88) -/

theorem rowNumber_u8 (P : Bytes) (name : String) (off : Nat) :
    rowNumber P ⟨name, off, .u8⟩ = (field8 P off).toNat := by
  have h := memRead_lt P off 1
  simp only [field8, rowNumber, fieldNumber, fieldWidth, BitVec.toNat_ofNat]
  rw [Nat.mod_eq_of_lt (by omega)]

theorem rowNumber_u16 (P : Bytes) (name : String) (off : Nat) :
    rowNumber P ⟨name, off, .u16⟩ = (field16 P off).toNat := by
  have h := memRead_lt P off 2
  simp only [field16, rowNumber, fieldNumber, fieldWidth, BitVec.toNat_ofNat]
  rw [Nat.mod_eq_of_lt (by omega)]

theorem rowNumber_u32 (P : Bytes) (name : String) (off : Nat) :
    rowNumber P ⟨name, off, .u32⟩ = (field32 P off).toNat := by
  have h := memRead_lt P off 4
  simp only [field32, rowNumber, fieldNumber, fieldWidth, BitVec.toNat_ofNat]
  rw [Nat.mod_eq_of_lt (by omega)]

/-- `sext` of a value that fits its width is the signed reading of its bit pattern. -/
theorem fieldNumber_i8 {v : Nat} (h : v < 2 ^ 8) : fieldNumber .i8 v = (BitVec.ofNat 8 v).toInt := by
  simp only [fieldNumber, BitVec.toInt_eq_toNat_cond, BitVec.toNat_ofNat, Nat.mod_eq_of_lt h]
  split <;> split <;> omega

theorem fieldNumber_i16 {v : Nat} (h : v < 2 ^ 16) : fieldNumber .i16 v = (BitVec.ofNat 16 v).toInt := by
  simp only [fieldNumber, BitVec.toInt_eq_toNat_cond, BitVec.toNat_ofNat, Nat.mod_eq_of_lt h]
  split <;> split <;> omega

theorem fieldNumber_i32 {v : Nat} (h : v < 2 ^ 32) : fieldNumber .i32 v = (BitVec.ofNat 32 v).toInt := by
  simp only [fieldNumber, BitVec.toInt_eq_toNat_cond, BitVec.toNat_ofNat, Nat.mod_eq_of_lt h]
  split <;> split <;> omega

theorem rowNumber_i8 (P : Bytes) (name : String) (off : Nat) :
    rowNumber P ⟨name, off, .i8⟩ = (field8 P off).toInt :=
  fieldNumber_i8 (memRead_lt P off 1)

theorem rowNumber_i16 (P : Bytes) (name : String) (off : Nat) :
    rowNumber P ⟨name, off, .i16⟩ = (field16 P off).toInt :=
  fieldNumber_i16 (memRead_lt P off 2)

theorem rowNumber_i32 (P : Bytes) (name : String) (off : Nat) :
    rowNumber P ⟨name, off, .i32⟩ = (field32 P off).toInt :=
  fieldNumber_i32 (memRead_lt P off 4)

/-- A frame is as many transfers as it has bytes (R189). -/
@[simp] theorem frameBeats_length (F : Bytes) : (frameBeats F).length = F.length := by
  induction F with
  | nil => rfl
  | cons b F ih => cases F <;> simp_all [frameBeats]

/-- A decoder answers a record of its own type exactly when the payload has the minimum length (R130). -/
theorem decRecord_cases (T : RecType) (P : Bytes) :
    (P.length < minLen T ∧ decRecord T P = none) ∨
    (minLen T ≤ P.length ∧ ∃ r, decRecord T P = some r ∧ recordType r = T) := by
  cases T <;>
    simp only [decRecord, decPvt, decPosecef, decVelecef, decTimeutc, minLen] <;>
    split <;> simp_all [recordType]

/-- The dispatch of a decoded id: a short payload is noted and forwarded; any other lands its record, queues it, and is
forwarded (R184). -/
theorem decodeAndForward_cases (T : RecType) (P : Bytes) (s : State) :
    (P.length < minLen T ∧ decRecord T P = none ∧
      decodeAndForward T P s = (s.note .payloadTooShort).pushFrame 0x01 (recId T) P) ∨
    (minLen T ≤ P.length ∧ ∃ r, decRecord T P = some r ∧ recordType r = T ∧
      decodeAndForward T P s =
        ((s.aggUpdate r).push (.record T (P.take (minLen T)))).pushFrame 0x01 (recId T) P) := by
  rcases decRecord_cases T P with ⟨hl, hn⟩ | ⟨hl, r, hr, ht⟩
  · exact .inl ⟨hl, hn, by simp [decodeAndForward, hn]⟩
  · exact .inr ⟨hl, r, hr, ht, by simp [decodeAndForward, hr]⟩

theorem memWrites_length {S : Bytes} {ws : List (Nat × Nat × Nat)} (h : ∀ w ∈ ws, w.1 + w.2.1 ≤ S.length) :
    (memWrites S ws).length = S.length := by
  induction ws generalizing S with
  | nil => rfl
  | cons w ws ih =>
    have hw := h w (by simp)
    rw [memWrites, ih (by rw [memWrite_length _ hw]; exact fun x hx => h x (by simp [hx])), memWrite_length _ hw]

/-- A read apart from every write of a list gives what it gave before. -/
theorem memRead_memWrites_other {S : Bytes} {ws : List (Nat × Nat × Nat)} {a m : Nat}
    (h : ∀ w ∈ ws, w.1 + w.2.1 ≤ S.length) (ha : a + m ≤ S.length)
    (hd : ∀ w ∈ ws, a + m ≤ w.1 ∨ w.1 + w.2.1 ≤ a) : memRead (memWrites S ws) a m = memRead S a m := by
  induction ws generalizing S with
  | nil => rfl
  | cons w ws ih =>
    have hw := h w (by simp)
    have hl := memWrite_length w.2.2 hw
    rw [memWrites, ih (by rw [hl]; exact fun x hx => h x (by simp [hx])) (by rw [hl]; exact ha) fun x hx => hd x (by simp [hx]),
      memRead_memWrite_other _ hw ha (hd w (by simp))]

/-- A read of exactly what one of a list of disjoint writes wrote gives its value, cut to its width. -/
theorem memRead_memWrites {S : Bytes} {ws : List (Nat × Nat × Nat)} {off n v : Nat}
    (h : ∀ w ∈ ws, w.1 + w.2.1 ≤ S.length)
    (hd : ws.Pairwise fun w x => w.1 + w.2.1 ≤ x.1 ∨ x.1 + x.2.1 ≤ w.1) (hm : (off, n, v) ∈ ws) :
    memRead (memWrites S ws) off n = v % 256 ^ n := by
  induction ws generalizing S with
  | nil => simp at hm
  | cons w ws ih =>
    have hw := h w (by simp)
    have hl := memWrite_length w.2.2 hw
    have hd' := List.pairwise_cons.1 hd
    have hr : ∀ x ∈ ws, x.1 + x.2.1 ≤ (memWrite S w.1 w.2.1 w.2.2).length := by
      rw [hl]; exact fun x hx => h x (by simp [hx])
    rcases List.mem_cons.1 hm with rfl | hm
    · rw [memWrites, memRead_memWrites_other hr (by rw [hl]; exact hw) hd'.1, memRead_memWrite_same _ hw]
    · exact ih hr hd'.2 hm

/-- The writes of the SOL payload lie inside its 52 bytes and apart from each other (R84). -/
theorem solWrites_tile (week : BitVec 16) (V : PvtRecord) (pos : Option PosecefRecord) (E : VelecefRecord) :
    (∀ w ∈ solWrites week V pos E, w.1 + w.2.1 ≤ 52) ∧
    (solWrites week V pos E).Pairwise fun w x => w.1 + w.2.1 ≤ x.1 ∨ x.1 + x.2.1 ≤ w.1 := by
  simp [solWrites]

@[simp] theorem solPayload_length (week : BitVec 16) (V : PvtRecord) (pos : Option PosecefRecord)
    (E : VelecefRecord) : (solPayload week V pos E).length = 52 := by
  rw [solPayload, memWrites_length (by simpa using (solWrites_tile week V pos E).1)]
  simp

/-- Each field of the SOL payload reads the value written to it. -/
theorem memRead_solPayload {week : BitVec 16} {V : PvtRecord} {pos : Option PosecefRecord} {E : VelecefRecord}
    {off n v : Nat} (hm : (off, n, v) ∈ solWrites week V pos E) :
    memRead (solPayload week V pos E) off n = v % 256 ^ n := by
  rw [solPayload]
  exact memRead_memWrites (by simpa using (solWrites_tile week V pos E).1) (solWrites_tile week V pos E).2 hm

/-- `SYNTH` has data exactly when the PVT and the VELECEF slot are full (R160). -/
theorem synth_cases (s : State) :
    ((s.slotPvt = none ∨ s.slotVel = none) ∧ s.synth = none) ∨
    (∃ V E, s.slotPvt = some V ∧ s.slotVel = some E ∧
      s.synth = some (solPayload s.pins.cfgWeek V s.slotPos E)) := by
  unfold State.synth
  cases hV : s.slotPvt <;> cases hE : s.slotVel <;> simp

/-- What a payload of `SYNTH` is. -/
theorem synth_eq_some {s : State} {S : Bytes} (h : s.synth = some S) :
    ∃ V E, s.slotPvt = some V ∧ s.slotVel = some E ∧ S = solPayload s.pins.cfgWeek V s.slotPos E := by
  rcases synth_cases s with ⟨_, hn⟩ | ⟨V, E, hV, hE, hs⟩
  · rw [hn] at h; exact absurd h (by simp)
  · rw [hs] at h; exact ⟨V, E, hV, hE, (Option.some.inj h).symm⟩

/-- The synthesis notes the missing prerequisite or queues one frame (R160, R164). -/
theorem synthesize_cases (s : State) :
    ((s.slotPvt = none ∨ s.slotVel = none) ∧ s.synthesize = s.note .missingPrerequisite) ∨
    (∃ V E, s.slotPvt = some V ∧ s.slotVel = some E ∧
      s.synthesize = s.pushFrame 0x01 0x06 (solPayload s.pins.cfgWeek V s.slotPos E)) := by
  rcases synth_cases s with ⟨h, hn⟩ | ⟨V, E, hV, hE, hs⟩
  · exact .inl ⟨h, by simp [State.synthesize, hn]⟩
  · exact .inr ⟨V, E, hV, hE, by simp [State.synthesize, hs]⟩

/-- What VELECEF does: only forwards a short payload, and synthesizes after any other (R187). -/
theorem execVelecef_cases (P : Bytes) (s : State) :
    (P.length < 20 ∧ execVelecef P s = .next ((s.note .payloadTooShort).pushFrame 0x01 0x11 P)) ∨
    (20 ≤ P.length ∧ ∃ r, decVelecef P = some r ∧
      execVelecef P s = .next
        (((s.aggUpdate (.velecef r)).push (.record .velecef (P.take 20))).pushFrame 0x01 0x11 P).synthesize) := by
  by_cases h : P.length < 20
  · exact .inl ⟨h, by simp [execVelecef, decodeAndForward, decRecord, decVelecef, h, recId]⟩
  · refine .inr ⟨by omega, _, by simp [decVelecef, h]; rfl, ?_⟩
    simp [execVelecef, decodeAndForward, decRecord, decVelecef, h, recId, minLen]

/-- No instruction stops: `DISPATCH` always answers a next state (R77, R212). -/
theorem exec_next (i : Instr) (s : State) : ∃ t, exec i s = .next t := by
  cases i with
  | pvt P => exact ⟨_, rfl⟩
  | posecef P => exact ⟨_, rfl⟩
  | velecef P =>
    rcases execVelecef_cases P s with ⟨_, h⟩ | ⟨_, _, _, h⟩
    · exact ⟨_, h⟩
    · exact ⟨_, h⟩
  | timeutc P => exact ⟨_, rfl⟩
  | navOther id P => exact ⟨_, rfl⟩
  | foreign cls id P => simp only [exec, execForeign]; split <;> exact ⟨_, rfl⟩
  | sol => exact ⟨_, rfl⟩

end Sys2Proof.Machine
end

