-- ==== Sys2Proof/Laws/Controller.lean ====
section
/-! SUPPORT. Laws of the controller: the chunk taken, the step enabled, and everything one step can do, said once. -/

namespace Sys2Proof.Machine

/-- A chunk taken has 1 to `READ_MAX` bytes (R181). -/
theorem takeChunk_bounds {m : Nat} (hm : 1 ≤ m) {src rest : List Bytes} {c : Bytes}
    (h : takeChunk m src = some (c, rest)) : 1 ≤ c.length ∧ c.length ≤ m := by
  induction src with
  | nil => simp [takeChunk] at h
  | cons x xs ih =>
    cases x with
    | nil => exact ih (by simpa [takeChunk] using h)
    | cons b x =>
      simp only [takeChunk] at h
      split at h <;> simp at h <;> obtain ⟨rfl, rfl⟩ := h
      · simp at *; omega
      · simp at *; omega

/-- There is no chunk exactly when every read offered is empty (R182). -/
theorem takeChunk_eq_none_iff {m : Nat} {src : List Bytes} :
    takeChunk m src = none ↔ ∀ c ∈ src, c = [] := by
  induction src with
  | nil => simp [takeChunk]
  | cons x xs ih =>
    cases x with
    | nil => simp [takeChunk, ih]
    | cons b x => simp only [takeChunk]; split <;> simp

theorem one_le_readMax (b : Build) : 1 ≤ b.readMax := by simp [Build.readMax]

/-- `INGEST` with a chunk there (R181). -/
theorem ingest_of_some {s : State} {c : Bytes} {rest : List Bytes}
    (h : takeChunk s.build.readMax s.source = some (c, rest)) :
    s.ingest = { s with buf := s.buf ++ c, source := rest, phase := .scan } := by
  simp [State.ingest, h]

/-- Which step is enabled (R180, R215). -/
theorem enabledStep_cases (s : State) :
    (s.pins.rst = true ∧ s.enabledStep = .reset) ∨
    (s.pins.rst = false ∧ s.phase = .fatal ∧ s.enabledStep = .wait) ∨
    (s.pins.rst = false ∧ s.phase ≠ .fatal ∧ s.pins.sinkFatal = true ∧ s.enabledStep = .fault .sink) ∨
    (s.pins.rst = false ∧ s.phase ≠ .fatal ∧ s.pins.sinkFatal = false ∧ s.pins.srcFatal = true ∧
      s.enabledStep = .fault .source) ∨
    (s.pins.Quiet ∧ s.phase = .idle ∧
      ((∃ c rest, takeChunk s.build.readMax s.source = some (c, rest) ∧ s.enabledStep = .ingest) ∨
       (takeChunk s.build.readMax s.source = none ∧ s.enabledStep = .wait))) ∨
    (s.pins.Quiet ∧ s.phase = .scan ∧
      ((s.outq = [] ∧ s.enabledStep = .scan) ∨
       (∃ e rest, s.outq = e :: rest ∧
         ((s.pins.readyFor e = true ∧ s.enabledStep = .emit) ∨
          (s.pins.readyFor e = false ∧ s.enabledStep = .wait))))) := by
  cases hr : s.pins.rst
  · cases hp : s.phase
    · cases hk : s.pins.sinkFatal
      · cases hs : s.pins.srcFatal
        · cases hc : takeChunk s.build.readMax s.source <;>
            simp [State.enabledStep, hr, hp, hk, hs, hc, Pins.Quiet]
          exact ⟨_, _, rfl⟩
        · simp [State.enabledStep, hr, hp, hk, hs]
      · simp [State.enabledStep, hr, hp, hk]
    · cases hk : s.pins.sinkFatal
      · cases hs : s.pins.srcFatal
        · cases hq : s.outq with
          | nil => simp [State.enabledStep, hr, hp, hk, hs, hq, Pins.Quiet]
          | cons e rest =>
            cases hy : s.pins.readyFor e <;>
              simp [State.enabledStep, hr, hp, hk, hs, hq, hy, Pins.Quiet]
        · simp [State.enabledStep, hr, hp, hk, hs]
      · simp [State.enabledStep, hr, hp, hk]
    · simp [State.enabledStep, hr, hp]
  · simp [State.enabledStep, hr]

/-- Everything a `SCAN` can do (R183). -/
theorem scan_cases {s t : State} (h : s.scan = .next t) :
    (decode s.build s.buf = .needMoreBytes ∧ t = (s.note .incompleteFrame).setPhase .idle) ∨
    (∃ n why, decode s.build s.buf = .discard n why ∧ t = (s.note why).setBuf (s.buf.drop n)) ∨
    (∃ i n, decode s.build s.buf = .instr i n ∧ exec i (s.setBuf (s.buf.drop n)) = .next t) := by
  unfold State.scan at h
  split at h
  · exact .inl ⟨‹_›, by cases h; rfl⟩
  · exact .inr (.inl ⟨_, _, ‹_›, by cases h; rfl⟩)
  · exact .inr (.inr ⟨_, _, ‹_›, h⟩)

/-- A scan always answers a next state. -/
theorem scan_next (s : State) : ∃ t, s.scan = .next t := by
  unfold State.scan
  split
  · exact ⟨_, rfl⟩
  · exact ⟨_, rfl⟩
  · exact exec_next _ _

/-- Everything a step of the block can do, with what makes it do so (R180, R215). -/
theorem blockStep_cases {s t : State} (h : s.blockStep = .next t) :
    (s.pins.rst = true ∧ t = s.resetBlock) ∨
    (s.pins.rst = false ∧ s.phase ≠ .fatal ∧ s.pins.sinkFatal = true ∧ t = s.raiseFatal .sink) ∨
    (s.pins.rst = false ∧ s.phase ≠ .fatal ∧ s.pins.sinkFatal = false ∧ s.pins.srcFatal = true ∧
      t = s.raiseFatal .source) ∨
    (s.pins.Quiet ∧ s.phase = .idle ∧ ∃ c rest, takeChunk s.build.readMax s.source = some (c, rest) ∧
      t = { s with buf := s.buf ++ c, source := rest, phase := .scan }) ∨
    (s.pins.Quiet ∧ s.phase = .scan ∧ s.outq = [] ∧ s.scan = .next t) ∨
    (s.pins.Quiet ∧ s.phase = .scan ∧ ∃ e rest, s.outq = e :: rest ∧ s.pins.readyFor e = true ∧
      t = { s with outq := rest, log := s.log ++ [e.toObs] }) ∨
    (s.pins.rst = false ∧ t = s ∧
      (s.phase = .fatal ∨ (s.phase = .idle ∧ takeChunk s.build.readMax s.source = none) ∨
        (s.phase = .scan ∧ ∃ e rest, s.outq = e :: rest ∧ s.pins.readyFor e = false))) := by
  unfold State.blockStep at h
  rcases enabledStep_cases s with
    ⟨hr, he⟩ | ⟨hr, hp, he⟩ | ⟨hr, hp, hk, he⟩ | ⟨hr, hp, hk, hs, he⟩ |
    ⟨hq, hp, ⟨c, rest, hc, he⟩ | ⟨hc, he⟩⟩ |
    ⟨hq, hp, ⟨ho, he⟩ | ⟨e, rest, ho, ⟨hy, he⟩ | ⟨hy, he⟩⟩⟩ <;>
    rw [he] at h <;> simp only [Host.Outcome.next.injEq] at h
  · exact .inl ⟨hr, h.symm⟩
  · exact .inr (.inr (.inr (.inr (.inr (.inr ⟨hr, h.symm, .inl hp⟩)))))
  · exact .inr (.inl ⟨hr, hp, hk, h.symm⟩)
  · exact .inr (.inr (.inl ⟨hr, hp, hk, hs, h.symm⟩))
  · exact .inr (.inr (.inr (.inl ⟨hq, hp, c, rest, hc, by rw [← h, ingest_of_some hc]⟩)))
  · exact .inr (.inr (.inr (.inr (.inr (.inr ⟨hq.1, h.symm, .inr (.inl ⟨hp, hc⟩)⟩)))))
  · exact .inr (.inr (.inr (.inr (.inl ⟨hq, hp, ho, h⟩))))
  · exact .inr (.inr (.inr (.inr (.inr (.inl ⟨hq, hp, e, rest, ho, hy, by rw [← h, State.emit_cons _ ho]⟩)))))
  · exact .inr (.inr (.inr (.inr (.inr (.inr ⟨hq.1, h.symm, .inr (.inr ⟨hp, e, rest, ho, hy⟩)⟩)))))

/-- The block itself never stops (R212). -/
theorem blockStep_next (s : State) : ∃ t, s.blockStep = .next t := by
  unfold State.blockStep
  split
  · exact ⟨_, rfl⟩
  · exact ⟨_, rfl⟩
  · exact ⟨_, rfl⟩
  · exact scan_next s
  · exact ⟨_, rfl⟩
  · exact ⟨_, rfl⟩

/-- Everything the host's move can do: nothing, new levels and more reads, or a refused change of the configuration. -/
theorem hostMove_cases (s : State) :
    (s.host = [] ∧ s.hostMove = .next s) ∨
    (∃ m rest, s.host = m :: rest ∧
      ((m.configLegal s.pins = true ∧
        s.hostMove = .next { s with pins := m.pins, source := s.source ++ m.offer, host := rest }) ∨
       (m.configLegal s.pins = false ∧ s.hostMove = .refused .configChangedWhileRunning))) := by
  cases hh : s.host with
  | nil => exact .inl ⟨rfl, by simp [State.hostMove, hh]⟩
  | cons m rest =>
    refine .inr ⟨m, rest, rfl, ?_⟩
    cases hl : m.configLegal s.pins
    · exact .inr ⟨rfl, by simp [State.hostMove, hh, hl]⟩
    · exact .inl ⟨rfl, by simp [State.hostMove, hh, hl]⟩

/-- A step is a step of the block and then the host's move. -/
theorem step_eq_of_blockStep {s t : State} (h : s.blockStep = .next t) : step s = t.hostMove := by
  simp [step, State.controllerStep, h]

/-- A step that answers: the block's state after its step, and the host's side moved or not. -/
theorem step_cases {s u : State} (h : step s = .next u) :
    ∃ t, s.blockStep = .next t ∧
      ((t.host = [] ∧ u = t) ∨
       (∃ m rest, t.host = m :: rest ∧ m.configLegal t.pins = true ∧
         u = { t with pins := m.pins, source := t.source ++ m.offer, host := rest })) := by
  obtain ⟨t, ht⟩ := blockStep_next s
  rw [step_eq_of_blockStep ht] at h
  refine ⟨t, ht, ?_⟩
  rcases hostMove_cases t with ⟨hh, he⟩ | ⟨m, rest, hh, ⟨hl, he⟩ | ⟨hl, he⟩⟩ <;> rw [he] at h
  · exact .inl ⟨hh, by cases h; rfl⟩
  · exact .inr ⟨m, rest, hh, hl, by cases h; rfl⟩
  · cases h

end Sys2Proof.Machine
end

