-- ==== Sys2Proof/Laws/PerInstr.lean ====
section
/-! SUPPORT. Statements made per instruction, one lemma per constructor of `Instr`. -/

namespace Sys2Proof.Laws.FrameShape

/-- The shape of an instruction's wire frame (R70, R74): class, id and payload of a well-formed one are encoded into a
frame of this length, with this head and these payload bytes, whatever the build; `sol`, which no received frame stands
for (R76), has none. -/
def Statement (i : Instr) : Prop :=
  (i.fields = none ↔ i = .sol) ∧
  ∀ (bd : Build) (cls id : Byte) (P : Bytes), WellFormed i → i.fields = some (cls, id, P) →
    P.length ≤ 65535 ∧ selectInstr cls id P = i ∧
    ∃ F, encode bd i = some F ∧ F.length = P.length + 8 ∧ F.take 4 = [bd.sync0, bd.sync1, cls, id] ∧
      memRead F 4 2 = P.length ∧ (F.drop 6).take P.length = P

/-- The part that does not depend on the constructor. -/
theorem of_selected {i : Instr} {c d : Byte} {Q : Bytes} (hf : i.fields = some (c, d, Q)) (hne : i ≠ .sol)
    (hw : WellFormed i → Q.length ≤ 65535 ∧ selectInstr c d Q = i) : Statement i := by
  refine ⟨by simp [hf, hne], fun bd cls id P h hP => ?_⟩
  obtain ⟨rfl, rfl, rfl⟩ : c = cls ∧ d = id ∧ Q = P := by simpa [hf] using hP
  obtain ⟨hl, hs⟩ := hw h
  refine ⟨hl, hs, encodeFrame bd c d Q, by simp [encode, hf], by simp, by simp [encodeFrame_eq_cons], ?_, ?_⟩
  · simpa using memRead_encodeFrame bd c d [] hl
  · simp [encodeFrame_eq_cons]

theorem pvt (P : Bytes) : Statement (.pvt P) :=
  of_selected rfl (by simp) fun h => ⟨by simpa [WellFormed, Instr.wellFormed, payloadFits] using h, rfl⟩

theorem posecef (P : Bytes) : Statement (.posecef P) :=
  of_selected rfl (by simp) fun h => ⟨by simpa [WellFormed, Instr.wellFormed, payloadFits] using h, rfl⟩

theorem velecef (P : Bytes) : Statement (.velecef P) :=
  of_selected rfl (by simp) fun h => ⟨by simpa [WellFormed, Instr.wellFormed, payloadFits] using h, rfl⟩

theorem timeutc (P : Bytes) : Statement (.timeutc P) :=
  of_selected rfl (by simp) fun h => ⟨by simpa [WellFormed, Instr.wellFormed, payloadFits] using h, rfl⟩

theorem navOther (id : Byte) (P : Bytes) : Statement (.navOther id P) :=
  of_selected rfl (by simp) fun h => by
    simp only [WellFormed, Instr.wellFormed, payloadFits, decodedIds, Bool.and_eq_true, decide_eq_true_eq] at h
    refine ⟨h.2, ?_⟩
    have hd := h.1
    simp at hd
    simp [selectInstr, hd]

theorem foreign (cls id : Byte) (P : Bytes) : Statement (.foreign cls id P) :=
  of_selected rfl (by simp) fun h => by
    simp only [WellFormed, Instr.wellFormed, payloadFits, Bool.and_eq_true, decide_eq_true_eq] at h
    exact ⟨h.2, by have := h.1; simp at this; simp [selectInstr, this]⟩

theorem sol : Statement .sol := by simp [Statement, Instr.fields]

end Sys2Proof.Laws.FrameShape
end

