-- ==== Sys2Proof/Tests/Slice0.lean ====
section
/-! SUPPORT. The model's own tests, with results taken from 95_test_vectors.md (the vector's id stands in each docstring),
and for every obligation with hypotheses a witness that meets them. -/

namespace Sys2Proof.Tests

open Sys2Proof.Machine

/-! ### Helpers -/

/-- The constants of 95_test_vectors.md: `SYNC0 SYNC1` = B5 62; `READ_MAX` = 4096 and the least `BUF_CAP` are this file's. -/
def testBuild : Build := ⟨0xB5, 0x62, 4095, 0⟩

/-- Both sinks ready, nothing reported, `WEEK_CONST` = 2300, `FWD_FOREIGN` as given. -/
def testPins (fwd : Bool) : Pins :=
  { rst := false, srcFatal := false, sinkFatal := false, outReady := true, recReady := true, cfgWeek := 2300,
    cfgFwdForeign := fwd }

/-- The reset state under those. -/
def testState : State := State.resetWith testBuild (testPins false)

/-- `SCAN` about to run on buffer `B`. -/
def scanning (B : Bytes) : State := { testState with buf := B, phase := .scan }

/-- A view of the next state, if there is one. -/
def after {α : Type} (f : State → α) : Host.Outcome State Fault Refusal → Option α
  | .next t => some (f t)
  | .fault _ => none
  | .refused _ => none

/-- A step whose next state has a property, from the evaluation of that property. -/
theorem of_after {p : State → Prop} {f : State → Bool} {o : Host.Outcome State Fault Refusal}
    (h : after f o = some true) (hp : ∀ t, f t = true → p t) : ∃ t, o = .next t ∧ p t := by
  cases o with
  | next t => exact ⟨t, rfl, hp t (by simpa [after] using h)⟩
  | fault f => cases f
  | refused r => simp [after] at h

/-- Payload M1. -/
def m1 : Bytes := [0x00, 0xCA, 0x5B, 0x07, 0x4E, 0xE5, 0x93, 0x18, 0xEB, 0x32, 0xA4, 0xF8, 0x14, 0x0C, 0x3A, 0x1B,
  0xFA, 0x00, 0x00, 0x00]

/-- Payload M5. -/
def m5 : Bytes := [0x00, 0xCA, 0x5B, 0x07, 0xCE, 0xFF, 0xFF, 0xFF, 0x78, 0x00, 0x00, 0x00, 0x07, 0x00, 0x00, 0x00,
  0x28, 0x00, 0x00, 0x00]

/-- Payload M7. -/
def m7 : Bytes := [0x00, 0xCA, 0x5B, 0x07, 0x19, 0x00, 0x00, 0x00, 0xA8, 0xE4, 0xFF, 0xFF, 0xE8, 0x07, 0x05, 0x11,
  0x0C, 0x22, 0x26, 0x07]

/-- Payload M8, the PVT payload of program P1. -/
def m8 : Bytes :=
  [0x00, 0xCA, 0x5B, 0x07, 0xE8, 0x07, 0x05, 0x11, 0x0C, 0x22, 0x38, 0x07, 0x1E, 0x00, 0x00, 0x00, 0xC7, 0xCF, 0xFF,
    0xFF, 0x03, 0x01, 0x00, 0x0C, 0x40, 0x87, 0x44, 0x53, 0x00, 0x56, 0x44, 0x15, 0xC8, 0xAF, 0x00, 0x00, 0x88, 0x13,
    0x00, 0x00, 0xDC, 0x05, 0x00, 0x00, 0xC4, 0x09, 0x00, 0x00] ++
  [0x64, 0x00, 0x00, 0x00, 0x38, 0xFF, 0xFF, 0xFF, 0x1E, 0x00, 0x00, 0x00, 0xDF, 0x00, 0x00, 0x00, 0xC0, 0x83, 0xC4,
    0x01, 0x90, 0x01, 0x00, 0x00, 0x40, 0x4B, 0x4C, 0x00, 0x96, 0x00] ++ List.replicate 14 0x00

/-- Frame UNK of program P2: class 01, id 30, payload AA BB. -/
def unk : Bytes := [0xB5, 0x62, 0x01, 0x30, 0x02, 0x00, 0xAA, 0xBB, 0x98, 0x0D]

/-- Frame FE of program P1: VELECEF with payload M5. -/
def fe : Bytes := [0xB5, 0x62, 0x01, 0x11, 0x14, 0x00] ++ m5 ++ [0xC4, 0x60]

/-- Frame FP of program P1: POSECEF with payload M1. -/
def fp : Bytes := [0xB5, 0x62, 0x01, 0x01, 0x14, 0x00] ++ m1 ++ [0x48, 0x58]

/-- Frame FU of program P2: TIMEUTC with payload M7. -/
def fu : Bytes := [0xB5, 0x62, 0x01, 0x21, 0x14, 0x00] ++ m7 ++ [0x65, 0x98]

/-- Frame FV of program P1: PVT with payload M8. -/
def fv : Bytes := [0xB5, 0x62, 0x01, 0x07, 0x5C, 0x00] ++ m8 ++ [0x2D, 0x69]

/-- Record M8. -/
def recM8 : PvtRecord :=
  { iTOW := 123456000, year := 2024, month := 5, day := 17, hour := 12, min := 34, sec := 56, valid := 0x07,
    tAcc := 30, nano := -12345, fixType := 3, flags := 0x01, flags2 := 0, numSV := 12, lon := 1397000000,
    lat := 356800000, height := 45000, hMSL := 5000, hAcc := 1500, vAcc := 2500, velN := 100, velE := -200,
    velD := 30, gSpeed := 223, headMot := 29656000, sAcc := 400, headAcc := 5000000, pDOP := 150, headVeh := 0,
    magDec := 0, magAcc := 0 }

/-- Record M1. -/
def recM1 : PosecefRecord :=
  { iTOW := 123456000, ecefX := 412345678, ecefY := -123456789, ecefZ := 456789012, pAcc := 250 }

/-- Record M5. -/
def recM5 : VelecefRecord := { iTOW := 123456000, ecefVX := -50, ecefVY := 120, ecefVZ := 7, sAcc := 40 }

/-- Record M7. -/
def recM7 : TimeutcRecord :=
  { iTOW := 123456000, tAcc := 25, nano := -7000, year := 2024, month := 5, day := 17, hour := 12, min := 34,
    sec := 38, valid := 0x07 }

/-- The SOL frame of program P1. -/
def solP1 : Bytes :=
  [0xB5, 0x62, 0x01, 0x06, 0x34, 0x00, 0x00, 0xCA, 0x5B, 0x07, 0xC7, 0xCF, 0xFF, 0xFF, 0xFC, 0x08, 0x03, 0x0D, 0x4E,
    0xE5, 0x93, 0x18, 0xEB, 0x32, 0xA4, 0xF8, 0x14, 0x0C, 0x3A, 0x1B, 0xFA, 0x00, 0x00, 0x00] ++
  [0xCE, 0xFF, 0xFF, 0xFF, 0x78, 0x00, 0x00, 0x00, 0x07, 0x00, 0x00, 0x00, 0x28, 0x00, 0x00, 0x00, 0x96, 0x00, 0x00,
    0x0C, 0x00, 0x00, 0x00, 0x00, 0x29, 0xD6]

/-! ### WellFormed: an ill-formed term for each check -/

/-- A payload one byte longer than the length field can declare. -/
def tooLong : Bytes := List.replicate 65536 0x00

theorem tooLong_length : tooLong.length = 65536 := List.length_replicate ..

theorem test_illformed_payload_too_long :
    ¬ WellFormed (.pvt tooLong) ∧ ¬ WellFormed (.posecef tooLong) ∧
    ¬ WellFormed (.velecef tooLong) ∧ ¬ WellFormed (.timeutc tooLong) ∧
    ¬ WellFormed (.navOther 0x30 tooLong) ∧
    ¬ WellFormed (.foreign 0x0A 0x04 tooLong) := by
  simp only [WellFormed, Instr.wellFormed, payloadFits, tooLong_length]
  decide

theorem test_illformed_navOther_decoded_id :
    ¬ WellFormed (.navOther 0x07 []) ∧ ¬ WellFormed (.navOther 0x01 []) ∧ ¬ WellFormed (.navOther 0x11 []) ∧
    ¬ WellFormed (.navOther 0x21 []) := by decide

theorem test_illformed_foreign_class_one : ¬ WellFormed (.foreign 0x01 0x07 []) := by decide

theorem test_illformed_sol_as_input : ¬ WellFormed .sol := by decide

/-! ### Checksum, encoder, parser -/

/-- CK1, CK2, CK3, CK4, CK6. -/
theorem test_checksum :
    chkCompute [] = (0x00, 0x00) ∧ chkCompute [0x01] = (0x01, 0x01) ∧
    chkCompute [0x06, 0x00, 0x00, 0x00] = (0x06, 0x18) ∧ chkCompute [0xFF, 0xFF] = (0xFE, 0xFD) ∧
    chkCompute [1, 2, 3, 4, 5, 6, 7, 8, 9, 10] = (0x37, 0xDC) := by decide

/-- CK9, CK10. -/
theorem test_checksum_frame :
    chkFrame 0x01 0x01 (List.replicate 20 0x00) = (0x16, 0xE7) ∧
    chkFrame 0x01 0x06 (List.replicate 52 0x00) = (0x3B, 0x7A) := by decide +kernel

/-- N2, N6. -/
theorem test_encode :
    encode testBuild (.navOther 0x30 [0xAA, 0xBB]) = some unk ∧
    encode testBuild (.foreign 0xFF 0xFF [0xB5, 0x62])
      = some [0xB5, 0x62, 0xFF, 0xFF, 0x02, 0x00, 0xB5, 0x62, 0x17, 0xC9] := by decide

/-- EX1 to EX3, EX11, EX16: no marker at the head. -/
theorem test_extract_no_sync :
    extract testBuild [] = .needMoreBytes ∧ extract testBuild [0xB5] = .discard 1 .noSync ∧
    extract testBuild [0x00, 0xB5] = .discard 2 .noSync ∧
    extract testBuild ([0x00, 0xFF, 0xB5, 0x00] ++ unk) = .discard 4 .noSync ∧
    extract testBuild [0x62, 0xB5, 0x62, 0x01, 0x06, 0x00, 0x00, 0x07, 0x16] = .discard 1 .noSync := by decide

/-- EX4 to EX7, EX13 to EX15: the frame is not all there. -/
theorem test_extract_waits :
    extract testBuild [0xB5, 0x62] = .needMoreBytes ∧ extract testBuild (unk.take 5) = .needMoreBytes ∧
    extract testBuild (unk.take 6) = .needMoreBytes ∧ extract testBuild (unk.take 9) = .needMoreBytes ∧
    extract testBuild (unk.set 4 0x03) = .needMoreBytes ∧
    extract testBuild ([0xB5, 0x62, 0x01, 0x30, 0xFF, 0xFF] ++ List.replicate 10 0x00) = .needMoreBytes ∧
    extract testBuild [0xB5, 0x62, 0xB5, 0x62, 0x01, 0x06, 0x00, 0x00, 0x07, 0x16] = .needMoreBytes := by decide

/-- EX8, EX9, EX10, EX12: a whole frame, valid or not. -/
theorem test_extract_whole :
    extract testBuild unk = .frame 0x01 0x30 [0xAA, 0xBB] 10 ∧
    extract testBuild (unk ++ [0x00, 0x00]) = .frame 0x01 0x30 [0xAA, 0xBB] 10 ∧
    extract testBuild (unk.set 9 0x0E) = .discard 1 .checksumMismatch ∧
    extract testBuild (unk.set 4 0x01) = .discard 1 .checksumMismatch := by decide

/-! ### Decoding the written frames of every family -/

/-- FV of P1. -/
theorem test_decode_pvt : decode testBuild fv = .instr (.pvt m8) 100 := by decide +kernel

/-- FP of P1. -/
theorem test_decode_posecef : decode testBuild fp = .instr (.posecef m1) 28 := by decide

/-- FE of P1. -/
theorem test_decode_velecef : decode testBuild fe = .instr (.velecef m5) 28 := by decide

/-- FU of P2. -/
theorem test_decode_timeutc : decode testBuild fu = .instr (.timeutc m7) 28 := by decide

/-- UNK of P2, and N1: an input of id 06 (D25). -/
theorem test_decode_navOther :
    decode testBuild unk = .instr (.navOther 0x30 [0xAA, 0xBB]) 10 ∧
    decode testBuild [0xB5, 0x62, 0x01, 0x06, 0x00, 0x00, 0x07, 0x16] = .instr (.navOther 0x06 []) 8 := by decide

/-- N3. -/
theorem test_decode_foreign :
    decode testBuild [0xB5, 0x62, 0x0A, 0x04, 0x00, 0x00, 0x0E, 0x34] = .instr (.foreign 0x0A 0x04 []) 8 := by decide

/-- The key bits of spec/opcode_table.json, and the length and payload bits after them (log entry 5). -/
theorem test_table_words :
    decodeTableWord 16 0x0107 = some (.pvt []) ∧ decodeTableWord 16 0x0111 = some (.velecef []) ∧
    decodeTableWord 16 0x0106 = some (.navOther 0x06 []) ∧ decodeTableWord 16 0x0A04 = some (.foreign 0x0A 0x04 []) ∧
    decodeTableWord 48 0xBBAA00020130 = some (.navOther 0x30 [0xAA, 0xBB]) := by decide

/-! ### Decoders -/

/-- M1, M3, M4. -/
theorem test_dec_posecef :
    decPosecef m1 = some recM1 ∧ decPosecef (m1.take 19) = none ∧ decPosecef [] = none := by decide

/-- M2: signs by type. -/
theorem test_dec_posecef_signs :
    (decPosecef [0xFF, 0xFF, 0xFF, 0xFF, 0x00, 0x00, 0x00, 0x80, 0xFF, 0xFF, 0xFF, 0x7F, 0x00, 0x00, 0x00, 0x00,
      0xFF, 0xFF, 0xFF, 0xFF]).map (fun r => recordNumbers (.posecef r))
        = some [4294967295, -2147483648, 2147483647, 0, 4294967295] := by decide

/-- M5. -/
theorem test_dec_velecef : decVelecef m5 = some recM5 := by decide

/-- M7. -/
theorem test_dec_timeutc : decTimeutc m7 = some recM7 := by decide

/-- M8, M9, M11. -/
theorem test_dec_pvt :
    decPvt m8 = some recM8 ∧ decPvt (m8.take 91) = none ∧ decPvt (m8 ++ [0x11, 0x22, 0x33, 0x44]) = some recM8 := by
  decide +kernel

/-- M10. -/
theorem test_dec_pvt_signs :
    (decPvt ((((List.replicate 92 0x00).set 20 0xFF).set 89 0x80))).map (fun r => (r.fixType.toInt, r.magDec.toInt))
      = some (-1, -32768) := by decide +kernel

/-! ### Synthesizer -/

/-- The flag table of 2.6, and X1. -/
theorem test_solflags :
    solFlagsOf 0x01 0x00 = 0x01 ∧ solFlagsOf 0x02 0x00 = 0x02 ∧ solFlagsOf 0x00 0x01 = 0x00 ∧
    solFlagsOf 0x00 0x02 = 0x0C ∧ solFlagsOf 0x00 0xFD = 0x00 ∧ solFlagsOf 0x03 0x02 = 0x0F ∧
    solFlagsOf 0xFC 0x02 = 0x0C ∧ solFlagsOf 0xFF 0xFD = 0x03 ∧ solFlagsOf 0xFF 0xFF = 0x0F := by decide

/-- S3: the SOL payload of P1. -/
theorem test_sol_payload : solPayload 2300 recM8 (some recM1) recM5 = (solP1.drop 6).take 52 := by decide +kernel

/-- S1, S2. -/
theorem test_synth_gated :
    ({ testState with slotVel := some recM5 } : State).synth = none ∧
    ({ testState with slotPvt := some recM8 } : State).synth = none := by decide

/-! ### Dispatch -/

/-- T1. -/
theorem test_exec_posecef :
    after (fun t => (t.slotPos, t.outq)) (exec (.posecef m1) testState)
      = some (some recM1, [.record .posecef m1, .frame fp]) := by decide +kernel

/-- T2. -/
theorem test_exec_pvt :
    after (fun t => (t.slotPvt, t.outq)) (exec (.pvt m8) testState)
      = some (some recM8, [.record .pvt m8, .frame fv]) := by decide +kernel

/-- X5, AG4: a short PVT payload. -/
theorem test_exec_pvt_short :
    after (fun t => (t.slotPvt, t.outq, t.trace))
      (exec (.pvt [0x01, 0x02, 0x03, 0x04]) { testState with slotPvt := some recM8 })
      = some (some recM8, [.frame [0xB5, 0x62, 0x01, 0x07, 0x04, 0x00, 0x01, 0x02, 0x03, 0x04, 0x16, 0x65]],
          [.payloadTooShort]) := by decide +kernel

/-- T3. -/
theorem test_exec_velecef_no_pvt :
    after (fun t => (t.slotVel, t.outq, t.trace)) (exec (.velecef m5) testState)
      = some (some recM5, [.record .velecef m5, .frame fe], [.missingPrerequisite]) := by decide +kernel

/-- T4, P1: the solution carries the new velocity. -/
theorem test_exec_velecef_sol :
    after (fun t => t.outq)
      (exec (.velecef m5) { testState with slotPvt := some recM8, slotPos := some recM1 })
      = some [.record .velecef m5, .frame fe, .frame solP1] := by decide +kernel

/-- T6. -/
theorem test_exec_timeutc :
    after (fun t => (t.slotUtc, t.outq)) (exec (.timeutc m7) testState)
      = some (some recM7, [.record .timeutc m7, .frame fu]) := by decide +kernel

/-- T7, T8. -/
theorem test_exec_navOther :
    after (fun t => t.outq) (exec (.navOther 0x30 [0xAA, 0xBB]) testState) = some [.frame unk] ∧
    after (fun t => t.outq) (exec (.navOther 0x06 []) testState)
      = some [.frame [0xB5, 0x62, 0x01, 0x06, 0x00, 0x00, 0x07, 0x16]] := by decide

/-- T9, T10. -/
theorem test_exec_foreign :
    after (fun t => t.outq) (exec (.foreign 0x0A 0x04 []) testState) = some [] ∧
    after (fun t => t.outq) (exec (.foreign 0x0A 0x04 []) (State.resetWith testBuild (testPins true)))
      = some [.frame [0xB5, 0x62, 0x0A, 0x04, 0x00, 0x00, 0x0E, 0x34]] := by decide

/-- S3 with R164. -/
theorem test_exec_sol :
    after (fun t => t.outq)
      (exec .sol { testState with slotPvt := some recM8, slotPos := some recM1, slotVel := some recM5 })
      = some [.frame solP1] := by decide +kernel

/-! ### Controller -/

/-- K1. -/
theorem test_ingest :
    after (fun t => (t.phase, t.buf, t.source))
      (step { testState with buf := fu.take 4, source := [(fu.drop 4).take 6] })
      = some (.scan, fu.take 10, []) := by decide

/-- K2. -/
theorem test_scan_waits :
    after (fun t => (t.phase, t.buf)) (step (scanning (fu.take 10))) = some (.idle, fu.take 10) := by decide

/-- K3. -/
theorem test_emit_blocked :
    after (fun t => (t.outq, t.inReady))
      (step { scanning [] with outq := [.frame unk], pins := { testPins false with outReady := false } })
      = some ([.frame unk], false) := by decide

/-- R189's worked example: ten transfers, `out_last` on 0D alone. -/
theorem test_frame_beats :
    ({ scanning [] with outq := [.frame unk] } : State).outOffer
      = some [(0xB5, false), (0x62, false), (0x01, false), (0x30, false), (0x02, false), (0x00, false), (0xAA, false),
          (0xBB, false), (0x98, false), (0x0D, true)] := by decide

/-- K4. -/
theorem test_sink_fatal_drops_events :
    after (fun t => (t.phase, t.fatalCause, t.outq, t.log, t.fatalPort))
      (step { scanning [] with outq := [.frame fe, .frame solP1], pins := { testPins false with sinkFatal := true } })
      = some (.fatal, .sink, [], [.fatal .sink], true) := by decide

/-- K5, K6. -/
theorem test_source_fatal_and_tie :
    after (fun t => (t.phase, t.fatalCause)) (step { testState with pins := { testPins false with srcFatal := true } })
      = some (.fatal, .source) ∧
    after (fun t => (t.phase, t.fatalCause))
      (step { testState with pins := { testPins false with srcFatal := true, sinkFatal := true } })
      = some (.fatal, .sink) := by decide

/-- K7. -/
theorem test_second_fatal_ignored :
    after (fun t => (t.phase, t.fatalCause))
      (step { testState with
        phase := .fatal, fatalCause := .source, pins := { testPins false with sinkFatal := true } })
      = some (.fatal, .source) := by decide

/-- K8, its first step; `in_ready` comes back with `rst` low. -/
theorem test_reset_from_fatal :
    after (fun t => ((t.phase, t.buf, t.slotVel), (t.fatalCause, t.inReady, t.fatalPort)))
      (step { testState with
        phase := .fatal, fatalCause := .source, buf := [0xB5], slotVel := some recM5,
        pins := { testPins false with rst := true }, host := [⟨testPins false, []⟩] })
      = some ((.idle, [], none), (.none, true, false)) := by decide

/-- A table word runs as the first instruction after reset. -/
theorem test_fetch_word :
    after (fun t => t.outq.length) (step (State.reset.withFetchWord 16 0x0101)) = some 1 ∧
    after (fun t => t.trace) (step (State.reset.withFetchWord 16 0x0101)) = some [.payloadTooShort] := by decide

/-! ### Witnesses: states and operands that meet the hypotheses of the statements -/

/-- The longest payload a frame can carry. -/
def longest : Bytes := List.replicate 65535 0x00

theorem longest_length : longest.length = 65535 := List.length_replicate ..

/-- Both operand kinds at the ends of their ranges. -/
theorem witness_DecodeEncodeRoundTrip :
    WellFormed (.pvt longest) ∧ WellFormed (.posecef []) ∧ WellFormed (.velecef longest) ∧ WellFormed (.timeutc []) ∧
    WellFormed (.navOther 0x00 longest) ∧ WellFormed (.navOther 0x06 []) ∧ WellFormed (.navOther 0xFF []) ∧
    WellFormed (.foreign 0x00 0x07 longest) ∧ WellFormed (.foreign 0xFF 0xFF []) := by
  simp only [WellFormed, Instr.wellFormed, payloadFits, longest_length]
  decide

theorem witness_ExtractEncodeRoundTrip : longest.length ≤ 65535 := by rw [longest_length]

theorem witness_FrameFieldsAtTheirPositions : longest.length ≤ 65535 := by rw [longest_length]

theorem witness_ExtractedFrameReencodes : ∃ bd B cls id P n, extract bd B = .frame cls id P n :=
  ⟨testBuild, unk, 0x01, 0x30, [0xAA, 0xBB], 10, by decide⟩

theorem witness_ChecksumCoversClassToPayload :
    longest.length ≤ 65535 ∧ ∃ bd B cls id P n, extract bd B = .frame cls id P n :=
  ⟨by rw [longest_length], witness_ExtractedFrameReencodes⟩

/-- The last two bytes of a frame, and bytes on both sides of a write. -/
theorem witness_MultiByteAccessIsLittleEndian :
    8 + 2 ≤ unk.length ∧ 4 + 2 ≤ unk.length ∧ (3 < unk.length ∧ 3 < 4) ∧ (6 < unk.length ∧ 4 + 2 ≤ 6) := by decide

theorem witness_SolFlagsBitByBit : 4 ≤ 4 ∧ 4 ≤ 7 := by decide

theorem witness_ExtractMakesProgress :
    extract testBuild [0x00, 0xB5] = .discard 2 .noSync ∧ extract testBuild unk = .frame 0x01 0x30 [0xAA, 0xBB] 10 := by
  decide

/-- X3's garbage, and none. -/
theorem witness_GarbageDiscardedExactly :
    (∀ k, k < 4 → ¬ StartsWithMarker testBuild (([0x00, 0xFF, 0xB5, 0x00] ++ [0xB5, 0x62]).drop k)) ∧
    ([0x00, 0xFF, 0xB5, 0x00] : Bytes) ≠ [] ∧
    ∀ k, k < ([] : Bytes).length → ¬ StartsWithMarker testBuild (([] ++ [0xB5, 0x62]).drop k) := by
  unfold StartsWithMarker
  decide

/-- UNK with its class, its id, its first payload byte and its last checksum byte changed. -/
theorem witness_OneCorruptByteDiscardsOne :
    ∀ k ∈ [2, 3, 6, 9], (k = 2 ∨ k = 3 ∨ (6 ≤ k ∧ k < ([0xAA, 0xBB] : Bytes).length + 8)) ∧
      (0x00 : Byte) ≠ byteAt (encodeFrame testBuild 0x01 0x30 [0xAA, 0xBB]) k := by decide

theorem witness_PartialFrameWaits : 2 ≤ 2 ∧ 2 < ([0xAA, 0xBB] : Bytes).length + 8 ∧ 9 < longest.length + 8 ∧
    2 ≤ 9 ∧ 9 < ([0xAA, 0xBB] : Bytes).length + 8 := by rw [longest_length]; decide

/-- Lengths on both sides of every minimum. -/
theorem witness_DecodersReadEveryField :
    (m8.take 91).length < minLen .pvt ∧ minLen .pvt ≤ m8.length ∧
    (m1.take 19).length < minLen .posecef ∧ minLen .posecef ≤ m1.length ∧
    (m5.take 19).length < minLen .velecef ∧ minLen .velecef ≤ m5.length ∧
    (m7.take 19).length < minLen .timeutc ∧ minLen .timeutc ≤ m7.length := by decide

theorem witness_DecodersIgnoreBytesPastMinimum :
    (m8.take 91).length < minLen .pvt ∧ minLen .pvt ≤ m8.length ∧ minLen .pvt ≤ (m8 ++ [0x11]).length ∧
    (m1.take 19).length < minLen .posecef ∧ minLen .posecef ≤ m1.length ∧
    (m5.take 19).length < minLen .velecef ∧ minLen .velecef ≤ m5.length ∧
    (m7.take 19).length < minLen .timeutc ∧ minLen .timeutc ≤ m7.length := by decide

/-- M12: two PVT payloads that differ in the first and the last reserved byte. -/
theorem witness_PvtReservedBytesReachNoField :
    92 ≤ m8.length ∧ m8.length = ((m8.set 78 0xFF).set 83 0xFF).length ∧ m8 ≠ (m8.set 78 0xFF).set 83 0xFF ∧
    ∀ k, k < 92 → (k < 78 ∨ 84 ≤ k) → byteAt m8 k = byteAt ((m8.set 78 0xFF).set 83 0xFF) k := by decide +kernel

theorem isSome_ne_none {α : Type} {o : Option α} (h : o.isSome = true) : o ≠ none := by
  rintro rfl; simp at h

/-- A reset over a full slot and over a whole frame in `BUF`, and the scan of a frame of each decoded type, which changes
its slot. -/
theorem witness_SlotsWrittenOnlyByDecodeOrReset :
    (∃ t, step { scanning fu with pins := { testPins false with rst := true }, slotVel := some recM5 } = .next t) ∧
    (∀ B, (scanning B).pins.rst = false) ∧
    (∃ t, step (scanning fv) = .next t ∧ t.slotPvt ≠ testState.slotPvt) ∧
    (∃ t, step (scanning fp) = .next t ∧ t.slotPos ≠ testState.slotPos) ∧
    (∃ t, step (scanning fe) = .next t ∧ t.slotVel ≠ testState.slotVel) ∧
    (∃ t, step (scanning fu) = .next t ∧ t.slotUtc ≠ testState.slotUtc) :=
  ⟨⟨_, rfl⟩, fun _ => rfl, of_after (f := State.pvtV) (by decide +kernel) fun _ h => isSome_ne_none h,
    of_after (f := State.posV) (by decide +kernel) fun _ h => isSome_ne_none h,
    of_after (f := State.velV) (by decide +kernel) fun _ h => isSome_ne_none h,
    of_after (f := State.utcV) (by decide +kernel) fun _ h => isSome_ne_none h⟩

/-- The three slots of P1 full; and no position. -/
def gated (pos : Option PosecefRecord) : State :=
  { scanning fe with slotPvt := some recM8, slotPos := pos, slotVel := some recM5 }

theorem witness_SolPayloadFieldSources :
    ((gated none).slotPvt = some recM8 ∧ (gated none).slotVel = some recM5 ∧ (gated none).slotPos = none) ∧
    ((gated (some recM1)).slotPvt = some recM8 ∧ (gated (some recM1)).slotVel = some recM5 ∧
      (gated (some recM1)).slotPos = some recM1) := ⟨⟨rfl, rfl, rfl⟩, ⟨rfl, rfl, rfl⟩⟩

theorem witness_SolFrameHeaderAndLength : ∃ S, (gated none).synth = some S := ⟨_, rfl⟩

/-- The shortest payloads that decode. -/
theorem witness_RecordMessagesDecodeRecordForward : 92 ≤ m8.length ∧ 20 ≤ m1.length ∧ 20 ≤ m7.length := by decide

theorem witness_VelecefDecodesForwardsSynthesizes :
    20 ≤ m5.length ∧ (gated none).slotPvt = some recM8 ∧ testState.slotPvt = none := ⟨by decide, rfl, rfl⟩

/-- The longest payloads that do not. -/
theorem witness_ShortPayloadOnlyForwards :
    (m8.take 91).length < 92 ∧ (m1.take 19).length < 20 ∧ (m5.take 19).length < 20 ∧ (m7.take 19).length < 20 := by
  decide

theorem witness_ForeignFollowsConfiguration :
    (State.resetWith testBuild (testPins true)).pins.cfgFwdForeign = true ∧ testState.pins.cfgFwdForeign = false :=
  ⟨rfl, rfl⟩

theorem witness_SolQueuesSolutionFrame :
    ((gated none).slotPvt = some recM8 ∧ (gated none).slotVel = some recM5) ∧
    testState.slotPvt = none ∧ ({ gated none with slotVel := none } : State).slotVel = none :=
  ⟨⟨rfl, rfl⟩, rfl, rfl⟩

/-- One instruction of each constructor runs, and is of no other constructor. -/
theorem witness_DispatchFrame :
    ∀ i ∈ [Instr.pvt m8, .posecef m1, .velecef m5, .timeutc m7, .navOther 0x06 [], .foreign 0x0A 0x04 [], .sol],
      (∃ t, exec i (gated none) = .next t) ∧
      (i = .sol → (∀ P, i ≠ .pvt P) ∧ (∀ P, i ≠ .posecef P) ∧ (∀ P, i ≠ .velecef P) ∧ ∀ P, i ≠ .timeutc P) :=
  fun i _ => ⟨exec_next i _, by rintro rfl; simp⟩

theorem witness_SynthesisOnlyOnVelocityRecord :
    ∃ t, Instr.velecef m5 ≠ .sol ∧ exec (.velecef m5) (gated none) = .next t :=
  ⟨_, by simp, rfl⟩

theorem testPins_quiet (fwd : Bool) : (testPins fwd).Quiet := ⟨rfl, rfl, rfl⟩

theorem scanning_draining (B : Bytes) : (scanning B).Draining := ⟨testPins_quiet false, rfl, rfl, rfl⟩

theorem witness_StepRunsDecodedInstruction :
    (scanning fu).pins.Quiet ∧ (scanning fu).phase = .scan ∧ (scanning fu).outq = [] ∧ (scanning fu).host = [] ∧
    decode (scanning fu).build (scanning fu).buf = .instr (.timeutc m7) 28 :=
  ⟨testPins_quiet false, rfl, rfl, rfl, by decide⟩

theorem witness_ScanWaitsOrDiscards :
    (∀ B, (scanning B).pins.Quiet ∧ (scanning B).phase = .scan ∧ (scanning B).outq = [] ∧ (scanning B).host = []) ∧
    extract (scanning []).build (scanning []).buf = .needMoreBytes ∧
    extract (scanning [0xB5]).build (scanning [0xB5]).buf = .discard 1 .noSync ∧
    extract (scanning (unk.set 9 0x0E)).build (scanning (unk.set 9 0x0E)).buf = .discard 1 .checksumMismatch :=
  ⟨fun _ => ⟨testPins_quiet false, rfl, rfl, rfl⟩, by decide⟩

/-- The source offers reads `src` in `IDLE`. -/
def offered (src : List Bytes) : State := { testState with source := src }

/-- Chunks of one byte, of `READ_MAX` bytes, and of one more. -/
theorem witness_IngestAppendsChunk :
    (∀ c, (offered [c]).pins.Quiet ∧ (offered [c]).phase = .idle ∧ (offered [c]).host = [] ∧
      (offered [c]).source = c :: []) ∧
    ([0xB5] : Bytes).length ≤ testBuild.readMax ∧ (List.replicate 4096 (0x00 : Byte)).length ≤ testBuild.readMax ∧
    testBuild.readMax < (List.replicate 4097 (0x00 : Byte)).length :=
  ⟨fun _ => ⟨testPins_quiet false, rfl, rfl, rfl⟩, by decide, by rw [List.length_replicate]; decide,
    by rw [List.length_replicate]; decide⟩

/-- A state of the run of P4b, in `IDLE` with the first 10 bytes of FU held. -/
def holding : State := { testState with buf := fu.take 10 }

theorem holding_inv : holding.Inv where
  idleQueueEmpty _ := rfl
  idleHolds _ := .inr ⟨by unfold StartsWithMarker; decide, by decide⟩
  fatalQueueEmpty _ := rfl
  causeIffFatal := by decide
  queueAtMostThree := by decide
  queueWellMade := by simp [holding, testState, State.resetWith]
  bufFits := by simp [holding, testState, State.resetWith, Build.bufCap, fu, m7]; omega

theorem witness_EmptyReadChangesNothing :
    holding.Inv ∧ holding.phase = .idle ∧ holding.pins.Quiet ∧ holding.host = [] ∧ ∀ c ∈ holding.source, c = [] :=
  ⟨holding_inv, rfl, testPins_quiet false, rfl, by decide⟩

/-- A state with a frame and one with a record at the head of `OUTQ`, ports ready or not. -/
def emitting (e : OutEvent) (ready : Bool) : State :=
  { scanning [] with outq := [e], pins := { testPins false with outReady := ready, recReady := ready } }

theorem witness_EmitTakesHeadOrWaits :
    (∀ e ready, (emitting e ready).pins.Quiet ∧ (emitting e ready).phase = .scan ∧ (emitting e ready).host = [] ∧
      (emitting e ready).outq = e :: [] ∧ (emitting e ready).pins.readyFor e = ready) ∧
    0 < unk.length ∧ 9 < unk.length :=
  ⟨fun e _ => ⟨⟨rfl, rfl, rfl⟩, rfl, rfl, rfl, by cases e <;> rfl⟩, by decide⟩

theorem witness_RecordEventEmitted :
    (∃ t, exec (selectInstr 0x01 (recId .timeutc) m7) testState = .next t ∧ minLen .timeutc ≤ m7.length) ∧
    (∃ t, exec .sol testState = .next t ∧ ∀ T P, Instr.sol = selectInstr 0x01 (recId T) P → P.length < minLen T) ∧
    ∀ ready, (emitting (.record .timeutc m7) ready).pins.Quiet ∧
      (emitting (.record .timeutc m7) ready).phase = .scan ∧ (emitting (.record .timeutc m7) ready).host = [] ∧
      (emitting (.record .timeutc m7) ready).outq = .record .timeutc m7 :: [] ∧
      (emitting (.record .timeutc m7) ready).pins.recReady = ready :=
  ⟨⟨_, rfl, by decide⟩, ⟨_, rfl, fun T _ h => by cases T <;> exact nomatch h⟩, fun _ => ⟨⟨rfl, rfl, rfl⟩, rfl, rfl, rfl, rfl⟩⟩

/-- Reports from the source alone, the sink alone, and both (K4, K5, K6). -/
def reporting (p : Phase) (src sink : Bool) : State :=
  { testState with phase := p, pins := { testPins false with srcFatal := src, sinkFatal := sink } }

theorem witness_FatalReportEntersFatal :
    ∀ src sink, (reporting .idle src sink).pins.rst = false ∧ (reporting .idle src sink).phase ≠ .fatal ∧
      (reporting .scan src sink).phase ≠ .fatal ∧ (reporting .idle src sink).host = [] ∧
      (reporting .idle src sink).pins.sinkFatal = sink ∧ (reporting .idle src sink).pins.srcFatal = src :=
  fun _ _ => ⟨rfl, by simp [reporting], by simp [reporting], rfl, rfl, rfl⟩

theorem witness_FatalEnteredOnlyByReport :
    (∃ t, (reporting .idle true false).phase ≠ .fatal ∧ step (reporting .idle true false) = .next t ∧
      t.phase = .fatal) ∧
    ∃ t, (reporting .scan true true).phase ≠ .fatal ∧ step (reporting .scan true true) = .next t ∧
      t.phase = .fatal :=
  ⟨⟨_, by simp [reporting], rfl, rfl⟩, ⟨_, by simp [reporting], rfl, rfl⟩⟩

/-- K7 with bytes offered, and the same with a host that offers more. -/
theorem witness_FatalHoldsUntilReset :
    (∃ s t : State, s.phase = .fatal ∧ s.pins.rst = false ∧ step s = .next t ∧ s.host = [] ∧ s.source ≠ []) ∧
    ∃ s t : State, s.phase = .fatal ∧ s.pins.rst = false ∧ step s = .next t ∧ t.source ≠ s.source :=
  ⟨⟨{ reporting .fatal false true with source := [unk] }, _, rfl, rfl, rfl, rfl, by decide⟩,
    ⟨{ reporting .fatal false true with source := [unk], host := [⟨testPins false, [fu]⟩] }, _, rfl, rfl, rfl,
      by decide⟩⟩

/-- Reset over a fatal report, in each phase. -/
theorem witness_ResetClearsTheBlock :
    ∀ p : Phase, ∃ s : State, s.phase = p ∧ s.pins.rst = true ∧ s.host = [] :=
  fun p => ⟨{ reporting p true true with pins := { testPins false with rst := true, sinkFatal := true } }, rfl, rfl, rfl⟩

theorem witness_StepKeepsInv : ∃ t, holding.Inv ∧ step holding = .next t := ⟨_, holding_inv, rfl⟩

theorem witness_BufNeverOverflows :
    holding.Inv ∧ holding.phase = .idle ∧ takeChunk holding.build.readMax [[], fu.drop 10] = some (fu.drop 10, []) :=
  ⟨holding_inv, rfl, by decide⟩

/-- A move that changes `cfg_week` while `rst` is 0. -/
def reconfiguring : State :=
  { testState with host := [⟨{ testPins false with cfgWeek := 2301 }, []⟩] }

theorem witness_NoInputStopsTheBlock :
    step reconfiguring = .refused .configChangedWhileRunning ∧ testState.host = [] := ⟨rfl, rfl⟩

theorem witness_ConfigurationHeldBetweenResets :
    ∃ t, step { testState with host := [⟨testPins false, [unk]⟩] } = .next t ∧ t.pins.rst = false := ⟨_, rfl, rfl⟩

/-- A frame of each decoder, long enough and one byte short, and one of another id and of another class. -/
theorem witness_DecoderChosenById :
    (∀ T P, ∃ t, exec (selectInstr 0x01 (recId T) P) testState = .next t) ∧
    decRecord .pvt (m8.take 91) = none ∧ (decRecord .pvt m8).isSome ∧ decRecord .posecef (m1.take 19) = none ∧
    (decRecord .posecef m1).isSome ∧ decRecord .velecef (m5.take 19) = none ∧ (decRecord .velecef m5).isSome ∧
    decRecord .timeutc (m7.take 19) = none ∧ (decRecord .timeutc m7).isSome ∧
    (∃ t, exec (selectInstr 0x01 0x06 []) testState = .next t) ∧ (∀ T, (0x06 : Byte) ≠ recId T) ∧
    ∃ t, exec (selectInstr 0x0A 0x07 m8) testState = .next t :=
  ⟨fun _ _ => exec_next _ _, by decide +kernel, by decide +kernel, by decide, by decide, by decide, by decide,
    by decide, by decide, exec_next _ _, fun T => by cases T <;> decide, exec_next _ _⟩

/-- A message of each shape: decoded and long enough, decoded and short, undecoded. -/
theorem witness_Class01ForwardedOnceUnchanged :
    (∀ B, (scanning B).Draining ∧ (scanning B).phase = .scan ∧ (scanning B).outq = []) ∧
    extract (scanning fe).build (scanning fe).buf = .frame 0x01 0x11 m5 28 ∧
    extract (scanning [0xB5, 0x62, 0x01, 0x07, 0x04, 0x00, 0x01, 0x02, 0x03, 0x04, 0x16, 0x65]).build
      (scanning [0xB5, 0x62, 0x01, 0x07, 0x04, 0x00, 0x01, 0x02, 0x03, 0x04, 0x16, 0x65]).buf
        = .frame 0x01 0x07 [0x01, 0x02, 0x03, 0x04] 12 ∧
    extract (scanning unk).build (scanning unk).buf = .frame 0x01 0x30 [0xAA, 0xBB] 10 :=
  ⟨fun B => ⟨scanning_draining B, rfl, rfl⟩, by decide⟩

theorem witness_NoEventLostOrReordered :
    ∃ t, step (emitting (.frame unk) true) = .next t ∧ (emitting (.frame unk) true).pins.Quiet :=
  ⟨_, rfl, ⟨rfl, rfl, rfl⟩⟩

theorem witness_ScanReturnsToIdle :
    (scanning (unk ++ fu)).Draining ∧ (scanning (unk ++ fu)).phase = .scan ∧ (scanning (unk ++ fu)).outq = [] :=
  ⟨scanning_draining _, rfl, rfl⟩

/-- The chunks of P4b. -/
theorem witness_ChunkingDoesNotMatter :
    testState.Draining ∧ testState.phase = .idle ∧ testState.outq = [] ∧ testState.buf = [] ∧ testState.source = [] ∧
    (∀ c ∈ [fu.take 10, fu.drop 10], c ≠ [] ∧ c.length ≤ testState.build.readMax) ∧
    NoSplitMarker testState.build [fu.take 10, fu.drop 10] := by
  refine ⟨scanning_draining [], rfl, rfl, rfl, rfl, by decide, fun before c d after h => ?_⟩
  cases before with
  | nil =>
    obtain ⟨rfl, rfl, _⟩ : c = fu.take 10 ∧ d = fu.drop 10 ∧ after = [] := by
      simp only [List.nil_append, List.cons.injEq] at h
      exact ⟨h.1.symm, h.2.1.symm, h.2.2.symm⟩
    decide
  | cons b bs =>
    have := congrArg List.length h
    simp at this
    omega

/-- A TIMEUTC step, and one that leaves the slot alone. -/
theorem witness_UtcSlotNeverRead :
    (∃ t, step (scanning fu) = .next t) ∧ ∃ t, step (scanning unk) = .next t := ⟨⟨_, rfl⟩, ⟨_, rfl⟩⟩

/-- A step of each kind: reset, ingest, discard, frame, and one that leaves `BUF` alone. -/
theorem witness_BufChangesOnlyAtItsEnds :
    (∃ t, step { scanning fu with pins := { testPins false with rst := true } } = .next t ∧ t.buf = []) ∧
    (∃ t, step (offered [unk]) = .next t ∧ t.buf = unk) ∧
    (∃ t, step (scanning [0x00, 0xB5]) = .next t ∧ t.buf = []) ∧
    (∃ t, step (scanning (unk ++ [0xB5])) = .next t ∧ t.buf = [0xB5]) ∧
    ∃ t, step holding = .next t ∧ t.buf = fu.take 10 :=
  ⟨⟨_, rfl, rfl⟩, ⟨_, rfl, rfl⟩, ⟨_, rfl, rfl⟩, ⟨_, rfl, rfl⟩, ⟨_, rfl, rfl⟩⟩

/-- No move, a legal move with `rst` at 1 that changes the configuration, one at 0 that does not, and one that may not. -/
theorem witness_HostMoveSetsPinsOrIsRefused :
    testState.host = [] ∧
    (∃ m rest, ({ testState with host := [⟨{ testPins true with rst := true }, []⟩] } : State).host = m :: rest ∧
      m.pins.rst = true) ∧
    (∃ m rest, ({ testState with host := [⟨testPins false, [unk]⟩] } : State).host = m :: rest ∧
      m.pins.cfgWeek = testState.pins.cfgWeek ∧ m.pins.cfgFwdForeign = testState.pins.cfgFwdForeign) ∧
    ∃ m rest, reconfiguring.host = m :: rest ∧ m.pins.rst = false ∧ m.pins.cfgWeek ≠ reconfiguring.pins.cfgWeek :=
  ⟨rfl, ⟨_, _, rfl, rfl⟩, ⟨_, _, rfl, rfl, rfl⟩, ⟨_, _, rfl, rfl, by decide⟩⟩

/-- A record of the greatest length, with a byte and a bit at each boundary. -/
theorem witness_RecordPacking : m8.length ≤ 92 ∧ 0 < m8.length ∧ 91 < m8.length ∧ 8 * m7.length ≤ 160 := by decide

theorem witness_PortsFollowPhase :
    ({ testState with pins := { testPins false with rst := true } } : State).pins.rst = true ∧
    (reporting .fatal false false).pins.rst = false ∧ (reporting .fatal false false).phase = .fatal := ⟨rfl, rfl, rfl⟩

end Sys2Proof.Tests
end

section
/-! PROOFS. Where the fields of a wire frame stand, and which bytes its checksum covers (30_encoding.md R70, R73). -/

namespace Sys2Proof

/-! ### The fields of an encoded frame -/

/-- Behind the six header bytes stand the payload and the two checksum bytes. -/
theorem encodeFrame_drop_six (bd : Build) (cls id : Byte) (P : Bytes) :
    (encodeFrame bd cls id P).drop 6 = P ++ [(chkFrame cls id P).1, (chkFrame cls id P).2] := by
  simp [encodeFrame_eq_cons]

/-- A byte behind the header is a byte of the payload or of the checksum. -/
theorem byteAt_encodeFrame_six_add (bd : Build) (cls id : Byte) {P : Bytes} {i : Nat} (h : i < P.length + 2) :
    byteAt (encodeFrame bd cls id P) (6 + i) =
      byteAt (P ++ [(chkFrame cls id P).1, (chkFrame cls id P).2]) i := by
  rw [← encodeFrame_drop_six bd cls id P, byteAt_drop (by rw [encodeFrame_length]; omega)]

theorem byteAt_encodeFrame_checksumA (bd : Build) (cls id : Byte) (P : Bytes) :
    byteAt (encodeFrame bd cls id P) (6 + P.length) = (chkFrame cls id P).1 := by
  rw [byteAt_encodeFrame_six_add bd cls id (by omega)]
  exact byteAt_append_right P (i := 0) (by simp)

theorem byteAt_encodeFrame_checksumB (bd : Build) (cls id : Byte) (P : Bytes) :
    byteAt (encodeFrame bd cls id P) (7 + P.length) = (chkFrame cls id P).2 := by
  rw [show 7 + P.length = 6 + (P.length + 1) by omega, byteAt_encodeFrame_six_add bd cls id (by omega)]
  exact byteAt_append_right P (i := 1) (by simp)

theorem encodeFrame_payload (bd : Build) (cls id : Byte) (P : Bytes) :
    ((encodeFrame bd cls id P).drop 6).take P.length = P := by
  rw [encodeFrame_drop_six, List.take_left]

/-- Settles O7: the header bytes from the encoder's own equation, the rest field by field. -/
theorem frameFieldsAtTheirPositions : Obligations.FrameFieldsAtTheirPositions := by
  intro bd cls id P hP
  have hlen : (encodeFrame bd cls id P).length = 8 + P.length := by rw [encodeFrame_length, Nat.add_comm]
  have hfield : memRead (encodeFrame bd cls id P) 4 2 = P.length := by
    simpa using memRead_encodeFrame bd cls id [] hP
  exact ⟨hlen, rfl, rfl, rfl, rfl, hfield, encodeFrame_payload bd cls id P,
    byteAt_encodeFrame_checksumA bd cls id P, byteAt_encodeFrame_checksumB bd cls id P⟩

/-! ### The bytes the checksum covers -/

theorem drop_eq_byteAt_cons {B : Bytes} {k : Nat} (h : k < B.length) :
    B.drop k = byteAt B k :: B.drop (k + 1) := by
  rw [byteAt_of_lt h]
  exact List.drop_eq_getElem_cons h

/-- Bytes 2 to 5+L of a sequence are its class, its id, the two bytes of its length field and `L` payload bytes. -/
theorem take_drop_two_eq_fields {B : Bytes} (h : 6 ≤ B.length) (L : Nat) :
    (B.drop 2).take (4 + L) = [byteAt B 2, byteAt B 3] ++ le16 (memRead B 4 2) ++ (B.drop 6).take L := by
  have hsplit : (B.drop 4).take (2 + L) = le16 (memRead B 4 2) ++ (B.drop 6).take L := by
    rw [List.take_add, List.drop_drop, le16, leBytes_memRead (by omega)]
  rw [drop_eq_byteAt_cons (by omega : 2 < B.length), drop_eq_byteAt_cons (by omega : 3 < B.length),
    show 4 + L = 2 + L + 1 + 1 by omega, List.take_succ_cons, List.take_succ_cons, hsplit]
  rfl

/-- `CHK_FRAME` of the fields at the head of a sequence is `CHK_COMPUTE` over the bytes they stand in (R73, R101). -/
theorem chkFrame_eq_chkCompute_span {B P : Bytes} (h6 : 6 ≤ B.length) (hlen : memRead B 4 2 = P.length)
    (hP : (B.drop 6).take P.length = P) :
    chkFrame (byteAt B 2) (byteAt B 3) P = chkCompute ((B.drop 2).take (4 + P.length)) := by
  rw [take_drop_two_eq_fields h6, hlen, hP]
  rfl

/-- Settles O8: in both kinds of frame the trailing bytes are `CHK_FRAME` of the fields, which stand where the span
lemma reads them. -/
theorem checksumCoversClassToPayload : Obligations.ChecksumCoversClassToPayload := by
  constructor
  · intro bd cls id P hP
    obtain ⟨hlen, -, -, hcls, hid, hfield, hpay, hA, hB⟩ := frameFieldsAtTheirPositions bd cls id P hP
    have hspan := chkFrame_eq_chkCompute_span (by omega) hfield hpay
    rw [hcls, hid] at hspan
    rw [hA, hB, ← hspan]
  · intro bd B cls id P n h
    obtain ⟨-, hn, hnP, hlen, rfl, rfl, hP, hchk⟩ := extract_frame_parts h
    rw [hchk]
    exact chkFrame_eq_chkCompute_span (by omega) hlen.symm (by rw [hlen, ← hP])

end Sys2Proof
end

section
/-! PROOFS. The three results of `EXTRACT` and what each of them carries (41_frame_codec.md R111). -/

namespace Sys2Proof

/-- Settles O12: one case per constructor of `Extract`; the bound of a discard and the length of a frame are the
parser's own lemmas. -/
theorem extractHasThreeResults : Obligations.ExtractHasThreeResults := by
  intro bd B
  cases h : extract bd B with
  | needMoreBytes => exact .inl rfl
  | discard n why =>
    obtain ⟨hpos, -⟩ := extract_discard_bounds h
    exact .inr (.inl ⟨n, why, rfl, hpos⟩)
  | frame cls id P n =>
    obtain ⟨-, -, rfl, -⟩ := extract_frame_parts h
    exact .inr (.inr ⟨cls, id, P, rfl⟩)

end Sys2Proof
end

section
/-! PROOFS. The aggregator's slots: what an update writes, and what a step of the machine does to them
(43_aggregator.md R150, R152). -/

namespace Sys2Proof.Machine

/-! ### One update -/

/-- Settles O20: per type, the update is the write of its slot and a written slot is full. -/
theorem aggUpdateReplacesOnlyItsSlot : Obligations.AggUpdateReplacesOnlyItsSlot := by
  intro s
  refine ⟨fun r => ⟨rfl, ?_⟩, fun r => ⟨rfl, ?_⟩, fun r => ⟨rfl, ?_⟩, fun r => ⟨rfl, ?_⟩⟩
  · simp [State.pvtV]
  · simp [State.posV]
  · simp [State.velV]
  · simp [State.utcV]

theorem aggUpdate_setBuf (s : State) (B : Bytes) (r : Record) :
    (s.setBuf B).aggUpdate r = (s.aggUpdate r).setBuf B := by cases r <;> rfl

theorem aggUpdate_slotPvt_of_ne {s : State} {r : Record} (h : (s.aggUpdate r).slotPvt ≠ s.slotPvt) :
    ∃ v, r = .pvt v ∧ (s.aggUpdate r).slotPvt = some v := by
  cases r <;> simp at h ⊢

theorem aggUpdate_slotPos_of_ne {s : State} {r : Record} (h : (s.aggUpdate r).slotPos ≠ s.slotPos) :
    ∃ v, r = .posecef v ∧ (s.aggUpdate r).slotPos = some v := by
  cases r <;> simp at h ⊢

theorem aggUpdate_slotVel_of_ne {s : State} {r : Record} (h : (s.aggUpdate r).slotVel ≠ s.slotVel) :
    ∃ v, r = .velecef v ∧ (s.aggUpdate r).slotVel = some v := by
  cases r <;> simp at h ⊢

theorem aggUpdate_slotUtc_of_ne {s : State} {r : Record} (h : (s.aggUpdate r).slotUtc ≠ s.slotUtc) :
    ∃ v, r = .timeutc v ∧ (s.aggUpdate r).slotUtc = some v := by
  cases r <;> simp at h ⊢

theorem slots_eq_iff (s t : State) : s.slots = t.slots ↔
    s.slotPvt = t.slotPvt ∧ s.slotPos = t.slotPos ∧ s.slotVel = t.slotVel ∧ s.slotUtc = t.slotUtc := by
  simp [State.slots]

/-! ### The record an instruction decodes -/

/-- The record the decoder of an instruction's type answers for its payload; `none` where the payload is short or no
decoder reads the message (R130, R135). -/
def decodedRecord : Instr → Option Record
  | .pvt P => decRecord .pvt P
  | .posecef P => decRecord .posecef P
  | .velecef P => decRecord .velecef P
  | .timeutc P => decRecord .timeutc P
  | .navOther .. | .foreign .. | .sol => none

theorem decodedRecord_eq_pvt {i : Instr} {v : PvtRecord} (h : decodedRecord i = some (.pvt v)) :
    ∃ P, i = .pvt P ∧ decPvt P = some v := by
  cases i <;> simp_all [decodedRecord, decRecord]

theorem decodedRecord_eq_posecef {i : Instr} {v : PosecefRecord} (h : decodedRecord i = some (.posecef v)) :
    ∃ P, i = .posecef P ∧ decPosecef P = some v := by
  cases i <;> simp_all [decodedRecord, decRecord]

theorem decodedRecord_eq_velecef {i : Instr} {v : VelecefRecord} (h : decodedRecord i = some (.velecef v)) :
    ∃ P, i = .velecef P ∧ decVelecef P = some v := by
  cases i <;> simp_all [decodedRecord, decRecord]

theorem decodedRecord_eq_timeutc {i : Instr} {v : TimeutcRecord} (h : decodedRecord i = some (.timeutc v)) :
    ∃ P, i = .timeutc P ∧ decTimeutc P = some v := by
  cases i <;> simp_all [decodedRecord, decRecord]

/-! ### The slots after each operation -/

theorem synthesize_slots (s : State) : s.synthesize.slots = s.slots := by
  rcases synthesize_cases s with ⟨-, h⟩ | ⟨V, E, -, -, h⟩
  · rw [h]; rfl
  · rw [h]; rfl

/-- Of the dispatch of a decoded id only its aggregator update reaches the slots (R184). -/
theorem decodeAndForward_slots (T : RecType) (P : Bytes) (s : State) :
    (decodeAndForward T P s).slots = ((decRecord T P).elim s s.aggUpdate).slots := by
  rcases decodeAndForward_cases T P s with ⟨-, hd, h⟩ | ⟨-, r, hd, -, h⟩
  · rw [h, hd]; rfl
  · rw [h, hd]; rfl

/-- What an instruction does to the slots: the update with the record it decodes, and nothing where it decodes none. -/
theorem exec_slots {i : Instr} {s t : State} (h : exec i s = .next t) :
    t.slots = ((decodedRecord i).elim s s.aggUpdate).slots := by
  cases i with
  | pvt P => cases h; exact decodeAndForward_slots .pvt P s
  | posecef P => cases h; exact decodeAndForward_slots .posecef P s
  | timeutc P => cases h; exact decodeAndForward_slots .timeutc P s
  | velecef P =>
    simp only [exec, execVelecef] at h
    split at h
    · cases h; exact decodeAndForward_slots .velecef P s
    · cases h; rw [synthesize_slots]; exact decodeAndForward_slots .velecef P s
  | navOther id P => cases h; rfl
  | foreign cls id P =>
    simp only [exec, execForeign] at h
    split at h
    · cases h; rfl
    · cases h; rfl
  | sol => cases h; exact synthesize_slots s

/-- The slots after a `SCAN` are as before, or updated with the record of the frame at the head of `BUF`. -/
theorem scan_slots_cases {s t : State} (h : s.scan = .next t) :
    t.slots = s.slots ∨
    ∃ i n r, decode s.build s.buf = .instr i n ∧ decodedRecord i = some r ∧ t.slots = (s.aggUpdate r).slots := by
  rcases scan_cases h with ⟨-, rfl⟩ | ⟨n, why, -, rfl⟩ | ⟨i, n, hdec, hexec⟩
  · exact .inl rfl
  · exact .inl rfl
  · have hslots := exec_slots hexec
    cases hr : decodedRecord i with
    | none => rw [hr] at hslots; exact .inl hslots
    | some r =>
      rw [hr, Option.elim_some, aggUpdate_setBuf] at hslots
      exact .inr ⟨i, n, r, hdec, hr, hslots⟩

/-! ### The slots after a step -/

/-- A step of the machine leaves the slots as the block's step does: the host's move writes none. -/
theorem step_slots {s u : State} (h : step s = .next u) : ∃ t, s.blockStep = .next t ∧ u.slots = t.slots := by
  obtain ⟨t, ht, ⟨-, rfl⟩ | ⟨m, rest, -, -, rfl⟩⟩ := step_cases h
  · exact ⟨u, ht, rfl⟩
  · exact ⟨t, ht, rfl⟩

/-- Everything a step can do to the slots: empty them, as `RESET`; update them with the record a `SCAN` decodes; leave
them (R152). -/
theorem step_slots_cases {s u : State} (h : step s = .next u) :
    (s.pins.rst = true ∧ u.slots = s.resetBlock.slots) ∨
    (s.pins.rst = false ∧ u.slots = s.slots) ∨
    (s.pins.Quiet ∧ s.phase = .scan ∧ s.outq = [] ∧ ∃ i n r, decode s.build s.buf = .instr i n ∧
      decodedRecord i = some r ∧ u.slots = (s.aggUpdate r).slots) := by
  obtain ⟨t, ht, hu⟩ := step_slots h
  rw [hu]
  rcases blockStep_cases ht with ⟨hr, rfl⟩ | ⟨hr, -, -, rfl⟩ | ⟨hr, -, -, -, rfl⟩ | ⟨hq, -, c, rest, -, rfl⟩ |
    ⟨hq, hp, ho, hscan⟩ | ⟨hq, -, e, rest, -, -, rfl⟩ | ⟨hr, rfl, -⟩
  · exact .inl ⟨hr, rfl⟩
  · exact .inr (.inl ⟨hr, rfl⟩)
  · exact .inr (.inl ⟨hr, rfl⟩)
  · exact .inr (.inl ⟨hq.1, rfl⟩)
  · rcases scan_slots_cases hscan with hs | hs
    · exact .inr (.inl ⟨hq.1, hs⟩)
    · exact .inr (.inr ⟨hq, hp, ho, hs⟩)
  · exact .inr (.inl ⟨hq.1, rfl⟩)
  · exact .inr (.inl ⟨hr, rfl⟩)

/-- Settles O21: of the three things a step does to the slots, `RESET` empties them and only a `SCAN`'s update changes
one; the slot that changed gives the record's type, and the type gives the instruction it was decoded from. -/
theorem slotsWrittenOnlyByDecodeOrReset : Obligations.SlotsWrittenOnlyByDecodeOrReset := by
  refine ⟨⟨rfl, rfl, rfl, rfl⟩, fun s t h => ?_⟩
  rcases step_slots_cases h with ⟨hr, hs⟩ | ⟨hr, hs⟩ | ⟨hq, hp, ho, i, n, r, hdec, hrec, hs⟩ <;>
    obtain ⟨hPvt, hPos, hVel, hUtc⟩ := (slots_eq_iff _ _).1 hs
  · exact ⟨fun _ => ⟨hPvt, hPos, hVel, hUtc⟩, fun hr' => absurd hr (by simp [hr'])⟩
  · exact ⟨fun hr' => absurd hr (by simp [hr']),
      fun _ => ⟨absurd hPvt, absurd hPos, absurd hVel, absurd hUtc⟩⟩
  · refine ⟨fun hr => absurd hq.1 (by simp [hr]), fun _ => ?_⟩
    rw [hPvt, hPos, hVel, hUtc]
    refine ⟨fun hne => ⟨hq, hp, ho, ?_⟩, fun hne => ⟨hq, hp, ho, ?_⟩, fun hne => ⟨hq, hp, ho, ?_⟩,
      fun hne => ⟨hq, hp, ho, ?_⟩⟩
    · obtain ⟨v, rfl, hv⟩ := aggUpdate_slotPvt_of_ne hne
      obtain ⟨P, rfl, hP⟩ := decodedRecord_eq_pvt hrec
      exact ⟨P, n, v, hdec, hP, hv⟩
    · obtain ⟨v, rfl, hv⟩ := aggUpdate_slotPos_of_ne hne
      obtain ⟨P, rfl, hP⟩ := decodedRecord_eq_posecef hrec
      exact ⟨P, n, v, hdec, hP, hv⟩
    · obtain ⟨v, rfl, hv⟩ := aggUpdate_slotVel_of_ne hne
      obtain ⟨P, rfl, hP⟩ := decodedRecord_eq_velecef hrec
      exact ⟨P, n, v, hdec, hP, hv⟩
    · obtain ⟨v, rfl, hv⟩ := aggUpdate_slotUtc_of_ne hne
      obtain ⟨P, rfl, hP⟩ := decodedRecord_eq_timeutc hrec
      exact ⟨P, n, v, hdec, hP, hv⟩

end Sys2Proof.Machine
end

section
/-! PROOFS. What the parser answers on a whole frame, on its first bytes, behind garbage and after one changed byte, and
the round trips of frames and instructions (41_frame_codec.md R110 to R120, 30_encoding.md R75 to R77). -/

namespace Sys2Proof

open Sys2Proof.Machine

/-! ### Waiting -/

/-- `EXTRACT` waits exactly on what may be held in `IDLE` (R24, R116). -/
theorem extract_eq_needMoreBytes_iff (bd : Build) (B : Bytes) :
    extract bd B = .needMoreBytes ↔ HeldPart bd B := by
  refine ⟨extract_eq_needMoreBytes, fun hh => ?_⟩
  rcases hh with rfl | ⟨hs, hshort⟩
  · rfl
  have hm := (findMarker_eq_zero_iff bd B).2 hs
  rcases extract_cases bd B with ⟨-, he⟩ | ⟨-, hn, -⟩ | ⟨k, hk, -⟩ | ⟨-, h6, h8, -⟩
  · exact he
  · rw [hm] at hn; cases hn
  · rw [hm] at hk; cases hk
  · omega

/-! ### Whole frames -/

/-- `EXTRACT` of a buffer that holds all the bytes its length field declares: the checksum decides (R112 steps 6 to
8). -/
theorem extract_of_whole {bd : Build} {B : Bytes} (hs : StartsWithMarker bd B) (hl : memRead B 4 2 + 8 ≤ B.length) :
    extract bd B =
      if (byteAt B (6 + memRead B 4 2), byteAt B (7 + memRead B 4 2))
          = chkFrame (byteAt B 2) (byteAt B 3) ((B.drop 6).take (memRead B 4 2)) then
        .frame (byteAt B 2) (byteAt B 3) ((B.drop 6).take (memRead B 4 2)) (memRead B 4 2 + 8)
      else .discard 1 .checksumMismatch := by
  have hm := (findMarker_eq_zero_iff bd B).2 hs
  rcases extract_cases bd B with ⟨hh, -⟩ | ⟨-, hn, -⟩ | ⟨k, hk, -⟩ | ⟨-, -, -, ⟨hc, he⟩ | ⟨hc, he⟩⟩
  · rcases hh with rfl | ⟨-, h6 | h8⟩
    · simp at hl
    · omega
    · omega
  · rw [hm] at hn; cases hn
  · rw [hm] at hk; cases hk
  · rw [he, if_pos hc]
  · rw [he, if_neg hc]

/-- Bytes behind a frame that is all there do not reach its extraction. -/
theorem extract_append_of_whole {bd : Build} {B : Bytes} (hs : StartsWithMarker bd B)
    (hl : memRead B 4 2 + 8 ≤ B.length) (T : Bytes) : extract bd (B ++ T) = extract bd B := by
  have hlen : memRead (B ++ T) 4 2 = memRead B 4 2 := memRead_append_left T (by omega)
  have hpay : ((B ++ T).drop 6).take (memRead B 4 2) = (B.drop 6).take (memRead B 4 2) := by
    rw [List.drop_append_of_le_length (by omega), List.take_append_of_le_length (by simp; omega)]
  rw [extract_of_whole (startsWithMarker_append hs T) (by rw [hlen, List.length_append]; omega),
    extract_of_whole hs hl, hlen, hpay, byteAt_append_left T (by omega), byteAt_append_left T (by omega),
    byteAt_append_left T (by omega), byteAt_append_left T (by omega)]

/-- A frame that `EXTRACT` takes is all there. -/
theorem whole_of_extract_frame {bd : Build} {B : Bytes} {cls id : Byte} {P : Bytes} {n : Nat}
    (h : extract bd B = .frame cls id P n) : StartsWithMarker bd B ∧ memRead B 4 2 + 8 ≤ B.length := by
  obtain ⟨hs, hn, hnP, hlen, -⟩ := extract_frame_parts h
  exact ⟨hs, by omega⟩

theorem extract_encodeFrame (bd : Build) (cls id : Byte) {P : Bytes} (h : P.length ≤ 65535) :
    extract bd (encodeFrame bd cls id P) = .frame cls id P (P.length + 8) := by
  obtain ⟨hlen, -, -, hcls, hid, hfield, hpay, hA, hB⟩ := frameFieldsAtTheirPositions bd cls id P h
  rw [extract_of_whole (encodeFrame_startsWithMarker bd cls id P) (by omega), hfield, hcls, hid, hpay, hA, hB,
    if_pos rfl]

/-- Settles O3: an encoded frame is all there, so the tail does not reach its extraction. -/
theorem extractEncodeRoundTrip : Obligations.ExtractEncodeRoundTrip := by
  intro bd cls id P T hP
  have he := extract_encodeFrame bd cls id hP
  obtain ⟨hs, hl⟩ := whole_of_extract_frame he
  rw [extract_append_of_whole hs hl, he]

/-- Settles O4: the bytes consumed are the marker, the four fields the checksum covers, the payload, and the two
checksum bytes, as the encoder puts them. -/
theorem extractedFrameReencodes : Obligations.ExtractedFrameReencodes := by
  intro bd B cls id P n h
  obtain ⟨hs, hn, hnP, hlen, hcls, hid, hP, hchk⟩ := extract_frame_parts h
  have h65535 : P.length ≤ 65535 := by have := memRead_lt B 4 2; omega
  have hfields := take_drop_two_eq_fields (B := B) (by omega) P.length
  have htrailer : (B.drop (6 + P.length)).take 2 = [(chkFrame cls id P).1, (chkFrame cls id P).2] := by
    rw [drop_eq_byteAt_cons (by omega), drop_eq_byteAt_cons (by omega), ← hchk,
      show 6 + P.length + 1 = 7 + P.length by omega]
    rfl
  have htake : B.take n = B.take 2 ++ ((B.drop 2).take (4 + P.length) ++ (B.drop (6 + P.length)).take 2) := by
    rw [hnP, show P.length + 8 = 2 + (4 + P.length + 2) by omega, List.take_add, List.take_add, List.drop_drop,
      show 2 + (4 + P.length) = 6 + P.length by omega]
  refine ⟨?_, hnP, hn, h65535⟩
  rw [htake, hs, hfields, htrailer, ← hcls, ← hid, ← hlen, show (B.drop 6).take P.length = P by rw [hlen, ← hP]]
  simp [encodeFrame]

/-- Settles O2: a well-formed instruction's frame is extracted whatever follows, and its class and id select the
instruction. -/
theorem decodeEncodeRoundTrip : Obligations.DecodeEncodeRoundTrip := by
  intro bd i hw
  have hshape : Laws.FrameShape.Statement i := by
    cases i with
    | pvt P => exact Laws.FrameShape.pvt P
    | posecef P => exact Laws.FrameShape.posecef P
    | velecef P => exact Laws.FrameShape.velecef P
    | timeutc P => exact Laws.FrameShape.timeutc P
    | navOther id P => exact Laws.FrameShape.navOther id P
    | foreign cls id P => exact Laws.FrameShape.foreign cls id P
    | sol => exact Laws.FrameShape.sol
  obtain ⟨hsol, hfields⟩ := hshape
  cases hf : i.fields with
  | none => rw [hsol.1 hf] at hw; cases hw
  | some f =>
    obtain ⟨cls, id, P⟩ := f
    obtain ⟨hP, hsel, -⟩ := hfields bd cls id P hw hf
    refine ⟨encodeFrame bd cls id P, by simp [encode, hf], fun T => ?_⟩
    simp [decode, extractEncodeRoundTrip bd cls id P T hP, hsel]

/-! ### The first bytes of a frame -/

/-- Settles O16: the marker is there, and the bytes are too few for a header or for the length the header declares. -/
theorem partialFrameWaits : Obligations.PartialFrameWaits := by
  intro bd cls id P k hP hk hlt
  set F := encodeFrame bd cls id P with hF
  have hFlen : F.length = P.length + 8 := encodeFrame_length bd cls id P
  have hlen : (F.take k).length = k := by rw [List.length_take]; omega
  have hs : StartsWithMarker bd (F.take k) := by
    rw [StartsWithMarker, List.take_take, min_eq_left hk]; exact encodeFrame_startsWithMarker bd cls id P
  have hheld : HeldPart bd (F.take k) := by
    refine .inr ⟨hs, ?_⟩
    by_cases h6 : k < 6
    · exact .inl (by omega)
    · have hfield : memRead F 4 2 = P.length := by simpa using memRead_encodeFrame bd cls id [] hP
      rw [memRead_take (by omega) (by omega)]
      exact .inr (by omega)
  exact (extract_eq_needMoreBytes_iff bd _).2 hheld

end Sys2Proof
end

section
/-! PROOFS. The marker search, the bytes a discard drops, and the repeated application of `EXTRACT` (41_frame_codec.md
R113 to R116, R119). -/

namespace Sys2Proof

open Sys2Proof.Machine

/-! ### The marker search -/

/-- What the search answers: a marker at that index and at no lower one, or a marker nowhere (R113). -/
theorem findMarker_spec (bd : Build) (B : Bytes) :
    match findMarker bd B with
    | some k => StartsWithMarker bd (B.drop k) ∧ ∀ j, j < k → ¬ StartsWithMarker bd (B.drop j)
    | none => ∀ j, ¬ StartsWithMarker bd (B.drop j) := by
  induction B with
  | nil => intro j h; simpa using two_le_of_startsWithMarker h
  | cons x B ih =>
    by_cases hs : StartsWithMarker bd (x :: B)
    · rw [(findMarker_eq_zero_iff bd _).2 hs]
      exact ⟨hs, fun j hj => absurd hj (by omega)⟩
    · rw [findMarker_cons_of_not hs]
      cases hm : findMarker bd B with
      | none =>
        rw [hm] at ih
        intro j
        cases j with
        | zero => exact hs
        | succ j => exact ih j
      | some k =>
        rw [hm] at ih
        obtain ⟨hk, hlow⟩ := ih
        refine ⟨hk, fun j hj => ?_⟩
        cases j with
        | zero => exact hs
        | succ j => exact hlow j (Nat.lt_of_succ_lt_succ hj)

/-- Settles O11: what the search answers, and that a least index is unique. -/
theorem markerIsLeastIndex : Obligations.MarkerIsLeastIndex := by
  intro bd B
  have hspec := findMarker_spec bd B
  cases hm : findMarker bd B with
  | none =>
    rw [hm] at hspec
    exact ⟨fun k => ⟨fun h => (by cases h), fun h => absurd h.1 (hspec k)⟩, fun _ => hspec, fun _ => rfl⟩
  | some k =>
    rw [hm] at hspec
    obtain ⟨hk, hlow⟩ := hspec
    refine ⟨fun k' => ⟨fun h => ?_, fun ⟨hk', hlow'⟩ => ?_⟩, fun h => (by cases h), fun h => absurd hk (h k)⟩
    · cases h; exact ⟨hk, hlow⟩
    · rcases Nat.lt_trichotomy k k' with hlt | rfl | hgt
      · exact absurd hk (hlow' k hlt)
      · rfl
      · exact absurd hk' (hlow k' hgt)

/-! ### Discards -/

/-- Bytes before the first marker are dropped in one discard (R112 step 2). -/
theorem extract_of_findMarker_succ {bd : Build} {B : Bytes} {k : Nat} (h : findMarker bd B = some (k + 1)) :
    extract bd B = .discard (k + 1) .noSync := by
  cases B with
  | nil => cases h
  | cons x B => simp [extract, h]

/-- A buffer with no marker is dropped whole (R112 step 1). -/
theorem extract_of_findMarker_none {bd : Build} {B : Bytes} (hne : B ≠ []) (h : findMarker bd B = none) :
    extract bd B = .discard B.length .noSync := by
  cases B with
  | nil => exact absurd rfl hne
  | cons x B => simp [extract, h]

/-- Whether a marker starts inside `A` depends on no byte behind the first two after `A`. -/
theorem startsWithMarker_drop_append_iff (bd : Build) {A M : Bytes} {k : Nat} (hk : k < A.length) :
    StartsWithMarker bd ((A ++ M).drop k) ↔ StartsWithMarker bd ((A ++ M.take 2).drop k) := by
  have hcut : A ++ M.take 2 = (A ++ M).take (A.length + 2) := by rw [List.take_length_add_append]
  rw [StartsWithMarker, StartsWithMarker, hcut, List.drop_take, List.take_take, min_eq_left (by omega)]

/-- Settles O14: behind the garbage stands the frame's marker, and by the premise none before, so the first discard is
the garbage; what is left begins with the frame. -/
theorem garbageDiscardedExactly : Obligations.GarbageDiscardedExactly := by
  intro bd G cls id P T hP hno
  have hF : encodeFrame bd cls id P ++ T ≠ [] := by simp [encodeFrame_eq_cons]
  have hmarker := encodeFrame_startsWithMarker bd cls id P
  have hrest : (G ++ encodeFrame bd cls id P ++ T).drop G.length = encodeFrame bd cls id P ++ T := by
    rw [List.append_assoc, List.drop_left]
  refine ⟨fun hG => ?_, ?_⟩
  · have hfind : findMarker bd (G ++ encodeFrame bd cls id P ++ T) = some G.length := by
      refine ((markerIsLeastIndex bd _).1 _).2 ⟨?_, fun k hk => ?_⟩
      · rw [hrest]; exact startsWithMarker_append hmarker T
      · rw [List.append_assoc, startsWithMarker_drop_append_iff bd hk,
          startsWithMarker_append hmarker T]
        exact hno k hk
    obtain ⟨j, hj⟩ := Nat.exists_eq_succ_of_ne_zero (mt List.length_eq_zero_iff.1 hG)
    rw [hj] at hfind ⊢
    exact extract_of_findMarker_succ hfind
  · rw [hrest]; exact extractEncodeRoundTrip bd cls id P T hP

/-! ### Repeated extraction -/

/-- Induction along the scan of a buffer: every result but the wait leaves a shorter buffer (R116). -/
theorem extract_induction {bd : Build} {motive : Bytes → Prop}
    (wait : ∀ B, extract bd B = .needMoreBytes → motive B)
    (discard : ∀ B n why, extract bd B = .discard n why → motive (B.drop n) → motive B)
    (frame : ∀ B cls id P n, extract bd B = .frame cls id P n → motive (B.drop n) → motive B) (B : Bytes) :
    motive B := by
  cases h : extract bd B with
  | needMoreBytes => exact wait B h
  | discard n why =>
    have := extract_discard_bounds h
    exact discard B n why h (extract_induction wait discard frame (B.drop n))
  | frame cls id P n =>
    obtain ⟨-, hn, hnP, -⟩ := extract_frame_parts h
    exact frame B cls id P n h (extract_induction wait discard frame (B.drop n))
termination_by B.length
decreasing_by all_goals rw [List.length_drop]; omega

theorem drainBuf_succ_of_discard {bd : Build} {B : Bytes} {n : Nat} {why : Condition}
    (h : extract bd B = .discard n why) (k : Nat) : drainBuf bd (k + 1) B = drainBuf bd k (B.drop n) := by
  simp [drainBuf, h]

theorem drainBuf_succ_of_frame {bd : Build} {B : Bytes} {cls id : Byte} {P : Bytes} {n : Nat}
    (h : extract bd B = .frame cls id P n) (k : Nat) : drainBuf bd (k + 1) B = drainBuf bd k (B.drop n) := by
  simp [drainBuf, h]

/-- Applied again and again `EXTRACT` waits after at most `|B|` calls. -/
theorem drainBuf_waits (bd : Build) (B : Bytes) :
    ∃ k, k ≤ B.length ∧ extract bd (drainBuf bd k B) = .needMoreBytes := by
  refine extract_induction (bd := bd)
    (motive := fun B => ∃ k, k ≤ B.length ∧ extract bd (drainBuf bd k B) = .needMoreBytes) ?_ ?_ ?_ B
  · exact fun B h => ⟨0, Nat.zero_le _, h⟩
  · intro B n why h ⟨k, hk, hw⟩
    have := extract_discard_bounds h
    rw [List.length_drop] at hk
    exact ⟨k + 1, by omega, by rw [drainBuf_succ_of_discard h]; exact hw⟩
  · intro B cls id P n h ⟨k, hk, hw⟩
    obtain ⟨-, hn, hnP, -⟩ := extract_frame_parts h
    rw [List.length_drop] at hk
    exact ⟨k + 1, by omega, by rw [drainBuf_succ_of_frame h]; exact hw⟩

/-- Settles O13: the bounds of each result, the wait's exact condition, and the induction along the scan. -/
theorem extractMakesProgress : Obligations.ExtractMakesProgress := by
  intro bd B
  refine ⟨fun n why h => extract_discard_bounds h, fun cls id P n h => ?_, extract_eq_needMoreBytes_iff bd B,
    drainBuf_waits bd B⟩
  obtain ⟨-, hn, hnP, -⟩ := extract_frame_parts h
  exact ⟨by omega, hn⟩

end Sys2Proof
end

section
/-! PROOFS. Multi-byte accesses as weighted sums, the record port's packing, the checksum's closed form, and what one
changed byte does to a frame (20_memory.md R52, 10_state.md R32, 40_checksum.md R102, 41_frame_codec.md R120). -/

namespace Sys2Proof

open Sys2Proof.Machine

/-! ### Multi-byte accesses -/

theorem memRead_eq_sum (B : Bytes) (off n : Nat) :
    memRead B off n = ∑ j ∈ Finset.range n, (byteAt B (off + j)).toNat * 256 ^ j := by
  induction n generalizing off with
  | zero => rfl
  | succ n ih =>
    have hstep (j : Nat) : (byteAt B (off + (j + 1))).toNat * 256 ^ (j + 1) =
        256 * ((byteAt B (off + 1 + j)).toNat * 256 ^ j) := by
      rw [show off + (j + 1) = off + 1 + j by omega]; ring
    rw [memRead_succ, ih, Finset.sum_range_succ', Finset.sum_congr rfl fun j _ => hstep j, ← Finset.mul_sum]
    simp [Nat.add_comm]

/-- Settles O10: the sum, and the reads and bytes of a write. -/
theorem multiByteAccessIsLittleEndian : Obligations.MultiByteAccessIsLittleEndian :=
  ⟨fun B off n _ => memRead_eq_sum B off n, fun _ _ _ v h =>
    ⟨memWrite_length v h, memRead_memWrite_same v h, fun _ hk hne => byteAt_memWrite_ne v h hk hne⟩⟩

/-! ### The record port's packing -/

/-- Byte `j` of a read value is byte `j` of the bytes read. -/
theorem memRead_div_mod (B : Bytes) {off n j : Nat} (hj : j < n) :
    memRead B off n / 256 ^ j % 256 = (byteAt B (off + j)).toNat := by
  induction n generalizing off j with
  | zero => omega
  | succ n ih =>
    have hb := (byteAt B off).isLt
    rw [memRead_succ]
    cases j with
    | zero => simp; omega
    | succ j =>
      have hrest : ((byteAt B off).toNat + 256 * memRead B (off + 1) n) / 256 = memRead B (off + 1) n := by omega
      rw [Nat.pow_succ', ← Nat.div_div_eq_div_mul, hrest, ih (by omega)]
      congr 2; omega

theorem memRead_lt_two_pow (B : Bytes) (off : Nat) {n w : Nat} (h : 8 * n ≤ w) : memRead B off n < 2 ^ w := by
  have hpow : (256 : Nat) ^ n = 2 ^ (8 * n) := by rw [Nat.pow_mul]
  have hlt := memRead_lt B off n
  exact hlt.trans_le (by rw [hpow]; exact Nat.pow_le_pow_right Nat.zero_lt_two h)

theorem toNat_ofNat_memRead (B : Bytes) (off : Nat) {n w : Nat} (h : 8 * n ≤ w) :
    (BitVec.ofNat w (memRead B off n)).toNat = memRead B off n := by
  rw [BitVec.toNat_ofNat, Nat.mod_eq_of_lt (memRead_lt_two_pow B off h)]

/-- Settles O59: `rec_data` is the read of the whole record, which has that byte there and fits in `8 |D|` bits. -/
theorem recordPacking : Obligations.RecordPacking := by
  intro D hD
  have hfit : (recData D).toNat = memRead D 0 D.length := toNat_ofNat_memRead D 0 (by omega)
  refine ⟨fun j hj => BitVec.eq_of_toNat_eq ?_, fun i hi => ?_⟩
  · have hbyte := memRead_div_mod D (off := 0) hj
    rw [BitVec.extractLsb'_toNat, hfit, Nat.shiftRight_eq_div_pow, Nat.pow_mul]
    simpa using hbyte
  · rw [BitVec.getLsbD, hfit]
    exact Nat.testBit_lt_two_pow (memRead_lt_two_pow D 0 hi)

/-! ### The checksum -/

theorem sum_byteAt_concat (A : Bytes) (x : Byte) (w : Nat → Nat) :
    ∑ i ∈ Finset.range (A ++ [x]).length, w i * (byteAt (A ++ [x]) i).toNat =
      (∑ i ∈ Finset.range A.length, w i * (byteAt A i).toNat) + w A.length * x.toNat := by
  have hlast : byteAt (A ++ [x]) A.length = x := byteAt_append_right A (B := [x]) (i := 0) (by simp)
  rw [List.length_append, List.length_singleton, Finset.sum_range_succ, hlast]
  congr 1
  exact Finset.sum_congr rfl fun i hi => by rw [byteAt_append_left [x] (Finset.mem_range.1 hi)]

theorem chkCompute_fst_toNat (B : Bytes) :
    (chkCompute B).1.toNat = (∑ i ∈ Finset.range B.length, (byteAt B i).toNat) % 256 := by
  induction B using List.reverseRecOn with
  | nil => rfl
  | append_singleton A x ih =>
    have hsum := sum_byteAt_concat A x fun _ => 1
    simp only [one_mul] at hsum
    rw [chkCompute_concat, hsum, BitVec.toNat_add, ih]
    omega

/-- With one more byte the weight of each byte before it grows by one, which adds the plain sum once. -/
theorem weightedSum_concat (A : Bytes) (x : Byte) :
    ∑ i ∈ Finset.range (A ++ [x]).length, ((A ++ [x]).length - i) * (byteAt (A ++ [x]) i).toNat =
      (∑ i ∈ Finset.range A.length, (A.length - i) * (byteAt A i).toNat) +
        ((∑ i ∈ Finset.range A.length, (byteAt A i).toNat) + x.toNat) := by
  have hweight (i : Nat) (hi : i ∈ Finset.range A.length) :
      ((A ++ [x]).length - i) * (byteAt A i).toNat =
        (A.length - i) * (byteAt A i).toNat + (byteAt A i).toNat := by
    have := Finset.mem_range.1 hi
    rw [List.length_append, List.length_singleton, show A.length + 1 - i = A.length - i + 1 by omega, Nat.succ_mul]
  rw [sum_byteAt_concat A x fun i => (A ++ [x]).length - i, Finset.sum_congr rfl hweight, Finset.sum_add_distrib,
    Nat.add_assoc]
  simp

/-- Settles O9: along the bytes, the last one first. -/
theorem checksumClosedForm : Obligations.ChecksumClosedForm := by
  intro B
  refine ⟨chkCompute_fst_toNat B, ?_⟩
  induction B using List.reverseRecOn with
  | nil => rfl
  | append_singleton A x ih =>
    rw [chkCompute_concat, weightedSum_concat, BitVec.toNat_add, BitVec.toNat_add, ih, chkCompute_fst_toNat]
    omega

/-! ### One changed byte -/

theorem chkCompute_fst_eq_sum (B : Bytes) : (chkCompute B).1 = B.sum := by
  induction B using List.reverseRecOn with
  | nil => rfl
  | append_singleton A x ih => rw [chkCompute_concat, ih, List.sum_append, List.sum_singleton]

/-- One changed byte changes the checksum's first byte. -/
theorem chkCompute_set_ne {B : Bytes} {k : Nat} {x : Byte} (hk : k < B.length) (hx : x ≠ byteAt B k) :
    (chkCompute (B.set k x)).1 ≠ (chkCompute B).1 := by
  have hsplit : B.sum = (B.take k).sum + byteAt B k + (B.drop (k + 1)).sum := by
    conv_lhs => rw [← List.take_append_drop k B, drop_eq_byteAt_cons hk]
    simp [add_assoc]
  rw [chkCompute_fst_eq_sum, chkCompute_fst_eq_sum, List.sum_set, if_pos hk, hsplit]
  simpa using hx

/-- The checksum the parser computes for the frame at the head of a buffer, over the bytes it covers (R73). -/
theorem chkFrame_head_eq_chkCompute {B : Bytes} (hl : memRead B 4 2 + 8 ≤ B.length) :
    chkFrame (byteAt B 2) (byteAt B 3) ((B.drop 6).take (memRead B 4 2)) =
      chkCompute ((B.drop 2).take (4 + memRead B 4 2)) := by
  have hlen : ((B.drop 6).take (memRead B 4 2)).length = memRead B 4 2 := by
    rw [List.length_take, List.length_drop]; omega
  have hspan := chkFrame_eq_chkCompute_span (B := B) (P := (B.drop 6).take (memRead B 4 2)) (by omega) hlen.symm
    (by rw [hlen])
  rwa [hlen] at hspan

/-- A changed byte among the `L` covered from byte 2 on is a changed byte of the covered bytes. -/
theorem take_drop_two_set {F : Bytes} {L k : Nat} (x : Byte) (hL : 2 + L ≤ F.length) (hk2 : 2 ≤ k) (hk : k < 2 + L) :
    ((F.set k x).drop 2).take L = ((F.drop 2).take L).set (k - 2) x ∧
      byteAt ((F.drop 2).take L) (k - 2) = byteAt F k := by
  constructor
  · rw [List.drop_set, if_neg (by omega), List.take_set]
  · rw [byteAt_take (by omega) (by simp; omega), byteAt_drop (by omega), show 2 + (k - 2) = k by omega]

/-- Settles O15: the changed frame is all there, and of the bytes its checksum covers and the checksum bytes exactly one
side has changed. -/
theorem oneCorruptByteDiscardsOne : Obligations.OneCorruptByteDiscardsOne := by
  intro bd cls id P T k x hP hk hx
  obtain ⟨hlen, -, -, -, -, hfield, -⟩ := frameFieldsAtTheirPositions bd cls id P hP
  have hchk := checksumCoversClassToPayload.1 bd cls id P hP
  have hmarker := encodeFrame_startsWithMarker bd cls id P
  generalize encodeFrame bd cls id P = F at *
  have hlen' : (F.set k x).length = 8 + P.length := by rw [List.length_set, hlen]
  have hfield' : memRead (F.set k x) 4 2 = P.length := by
    rw [← hfield]; exact memRead_congr fun j hj => byteAt_set_ne x (by omega) (by omega)
  have hs : StartsWithMarker bd (F.set k x) := by
    rw [StartsWithMarker, List.take_set_of_le (by omega)]; exact hmarker
  rw [extract_append_of_whole hs (by omega), extract_of_whole hs (by omega),
    chkFrame_head_eq_chkCompute (by omega), hfield', if_neg]
  by_cases hcov : k < 6 + P.length
  · obtain ⟨hset, hbyte⟩ := take_drop_two_set (F := F) (k := k) (L := 4 + P.length) x (by omega) (by omega) (by omega)
    rw [byteAt_set_ne x (by omega) (by omega), byteAt_set_ne x (by omega) (by omega), hchk, hset]
    have hcover : k - 2 < ((F.drop 2).take (4 + P.length)).length := by
      rw [List.length_take, List.length_drop]; omega
    intro heq
    exact chkCompute_set_ne hcover (by rw [hbyte]; exact hx) (congrArg Prod.fst heq).symm
  · rw [List.drop_set, if_neg (by omega), List.take_set_of_le (i := k - 2) (by omega), ← hchk]
    intro heq
    obtain ⟨h6, h7⟩ := Prod.mk.inj heq
    obtain rfl | rfl : k = 6 + P.length ∨ k = 7 + P.length := by omega
    · rw [byteAt_set_self x (by omega)] at h6; exact hx h6
    · rw [byteAt_set_self x (by omega)] at h7; exact hx h7

end Sys2Proof
end

section
/-! PROOFS. The instruction a frame's class and id select, and the key table's first matching row (30_encoding.md R75 to
R77). -/

namespace Sys2Proof

/-! ### The selection -/

/-- Settles O1: each frame is decoded by evaluation. -/
theorem decodesWrittenFrames : Obligations.DecodesWrittenFrames := by
  refine ⟨?_, ?_, ?_, ?_, ?_, ?_, ?_⟩ <;> decide

theorem mem_decodedIds_iff (id : Byte) : id ∈ decodedIds ↔ id = 0x07 ∨ id = 0x01 ∨ id = 0x11 ∨ id = 0x21 := by
  simp [decodedIds]

theorem selectInstr_foreign {cls : Byte} (h : cls ≠ 0x01) (id : Byte) (P : Bytes) :
    selectInstr cls id P = .foreign cls id P := by rw [selectInstr, if_pos h]

theorem selectInstr_navOther {id : Byte} (h : id ∉ decodedIds) (P : Bytes) :
    selectInstr 0x01 id P = .navOther id P := by
  simp only [mem_decodedIds_iff, not_or] at h
  obtain ⟨h07, h01, h11, h21⟩ := h
  rw [selectInstr, if_neg (not_not_intro rfl), if_neg h07, if_neg h01, if_neg h11, if_neg h21]

/-- What a frame selects: `FOREIGN` outside class 0x01, and within it the row of its id if it has one, else `NAV-OTHER`
(R75). -/
theorem selectInstr_cases (cls id : Byte) (P : Bytes) :
    (cls = 0x01 ∧ id = 0x07 ∧ selectInstr cls id P = .pvt P) ∨
    (cls = 0x01 ∧ id = 0x01 ∧ selectInstr cls id P = .posecef P) ∨
    (cls = 0x01 ∧ id = 0x11 ∧ selectInstr cls id P = .velecef P) ∨
    (cls = 0x01 ∧ id = 0x21 ∧ selectInstr cls id P = .timeutc P) ∨
    (cls = 0x01 ∧ id ∉ decodedIds ∧ selectInstr cls id P = .navOther id P) ∨
    (cls ≠ 0x01 ∧ selectInstr cls id P = .foreign cls id P) := by
  by_cases hc : cls = 0x01
  · subst hc
    by_cases hid : id ∈ decodedIds
    · rcases (mem_decodedIds_iff id).1 hid with rfl | rfl | rfl | rfl
      · exact .inl ⟨rfl, rfl, rfl⟩
      · exact .inr (.inl ⟨rfl, rfl, rfl⟩)
      · exact .inr (.inr (.inl ⟨rfl, rfl, rfl⟩))
      · exact .inr (.inr (.inr (.inl ⟨rfl, rfl, rfl⟩)))
    · exact .inr (.inr (.inr (.inr (.inl ⟨rfl, hid, selectInstr_navOther hid P⟩))))
  · exact .inr (.inr (.inr (.inr (.inr ⟨hc, selectInstr_foreign hc id P⟩))))

/-- Settles O6: in each case of the selection every form's condition is decided by the class and the id. -/
theorem instructionChosenByKey : Obligations.InstructionChosenByKey := by
  intro cls id P
  rcases selectInstr_cases cls id P with ⟨rfl, rfl, h⟩ | ⟨rfl, rfl, h⟩ | ⟨rfl, rfl, h⟩ | ⟨rfl, rfl, h⟩ |
    ⟨rfl, hid, h⟩ | ⟨hc, h⟩ <;> rw [h]
  · simp [decodedIds]
  · simp [decodedIds]
  · simp [decodedIds]
  · simp [decodedIds]
  · simp_all [mem_decodedIds_iff]
  · simp_all

/-! ### The key table -/

theorem append_eq_append_iff (a b c d : Byte) : a ++ b = c ++ d ↔ a = c ∧ b = d := by
  refine ⟨fun h => ?_, fun ⟨hac, hbd⟩ => by rw [hac, hbd]⟩
  obtain rfl : a = c := by
    rw [← BitVec.extractLsb'_append_eq_left (a := a) (b := b), h, BitVec.extractLsb'_append_eq_left]
  exact ⟨rfl, (BitVec.append_right_inj a).1 h⟩

/-- A key agrees with a row of full mask exactly when class and id are the row's. -/
theorem dispatchKey_and_full_eq_iff (cls id c d : Byte) :
    dispatchKey cls id &&& 0xFFFF = c ++ d ↔ cls = c ∧ id = d := by
  rw [← append_eq_append_iff, dispatchKey, show (0xFFFF : BitVec 16) = BitVec.allOnes 16 by decide,
    BitVec.and_allOnes]

/-- A key agrees with a row whose mask covers the class alone exactly when the class is the row's. -/
theorem dispatchKey_and_class_eq_iff (cls id c : Byte) :
    dispatchKey cls id &&& 0xFF00 = c ++ (0x00 : Byte) ↔ cls = c := by
  rw [dispatchKey, show (0xFF00 : BitVec 16) = BitVec.allOnes 8 ++ (0x00 : Byte) by decide, BitVec.and_append,
    BitVec.and_allOnes, append_eq_append_iff]
  simp

/-- A row is the first match, or the rows after it decide. -/
theorem find?_row_cons (key : BitVec 16) (r : KeyRow) (rows : List KeyRow) :
    ((r :: rows).find? fun r => key &&& r.mask == r.value).map KeyRow.mnemonic =
      if key &&& r.mask = r.value then some r.mnemonic
      else (rows.find? fun r => key &&& r.mask == r.value).map KeyRow.mnemonic := by
  by_cases h : key &&& r.mask = r.value
  · rw [if_pos h, List.find?_cons_of_pos (by simpa using h), Option.map_some]
  · rw [if_neg h, List.find?_cons_of_neg (by simpa using h)]

/-- The rows of the table, tried in order; each value written as its class and its id. -/
theorem firstRow_mnemonic (key : BitVec 16) :
    (firstRow key).map KeyRow.mnemonic =
      if key &&& 0xFFFF = (0x01 : Byte) ++ (0x07 : Byte) then some "PVT"
      else if key &&& 0xFFFF = (0x01 : Byte) ++ (0x01 : Byte) then some "POSECEF"
      else if key &&& 0xFFFF = (0x01 : Byte) ++ (0x11 : Byte) then some "VELECEF"
      else if key &&& 0xFFFF = (0x01 : Byte) ++ (0x21 : Byte) then some "TIMEUTC"
      else if key &&& 0xFF00 = (0x01 : Byte) ++ (0x00 : Byte) then some "NAV-OTHER" else some "FOREIGN" := by
  have hforeign : key &&& 0x0000 = 0x0000 := BitVec.and_zero
  simp only [firstRow, keyTable, find?_row_cons, if_pos hforeign]
  rfl

/-- Settles O5: in each case of the selection the row reached is the instruction's. -/
theorem keySelectsFirstTableRow : Obligations.KeySelectsFirstTableRow := by
  intro cls id P
  rw [firstRow_mnemonic]
  simp only [dispatchKey_and_full_eq_iff, dispatchKey_and_class_eq_iff]
  rcases selectInstr_cases cls id P with ⟨rfl, rfl, h⟩ | ⟨rfl, rfl, h⟩ | ⟨rfl, rfl, h⟩ | ⟨rfl, rfl, h⟩ |
    ⟨rfl, hid, h⟩ | ⟨hc, h⟩ <;> rw [h]
  · exact ⟨rfl, rfl⟩
  · exact ⟨rfl, rfl⟩
  · exact ⟨rfl, rfl⟩
  · exact ⟨rfl, rfl⟩
  · simp only [mem_decodedIds_iff, not_or] at hid
    exact ⟨by simp only [hid, and_false, if_false, if_true]; rfl, rfl⟩
  · exact ⟨by simp only [hc, false_and, if_false]; rfl, rfl⟩

end Sys2Proof
end

section
/-! PROOFS. The decoders read every field of their layouts and no other byte; the sources of the solution's fields
(42_decoders.md R130 to R136, 30_encoding.md R78 to R88, 44_synthesizer.md R160 to R164). -/

namespace Sys2Proof.Machine

/-! ### The fields of a record -/

theorem decPvt_numbers {P : Bytes} (h : 92 ≤ P.length) :
    ∃ r, decPvt P = some r ∧ recordNumbers (.pvt r) = pvtLayout.map (rowNumber P) :=
  ⟨_, by rw [decPvt, if_neg (by omega)], by
    simp only [recordNumbers, pvtLayout, List.map_append, List.map_cons, List.map_nil, rowNumber_u8, rowNumber_i8,
      rowNumber_u16, rowNumber_i16, rowNumber_u32, rowNumber_i32]⟩

theorem decPosecef_numbers {P : Bytes} (h : 20 ≤ P.length) :
    ∃ r, decPosecef P = some r ∧ recordNumbers (.posecef r) = posecefLayout.map (rowNumber P) :=
  ⟨_, by rw [decPosecef, if_neg (by omega)], by
    simp only [recordNumbers, posecefLayout, List.map_cons, List.map_nil, rowNumber_u32, rowNumber_i32]⟩

theorem decVelecef_numbers {P : Bytes} (h : 20 ≤ P.length) :
    ∃ r, decVelecef P = some r ∧ recordNumbers (.velecef r) = velecefLayout.map (rowNumber P) :=
  ⟨_, by rw [decVelecef, if_neg (by omega)], by
    simp only [recordNumbers, velecefLayout, List.map_cons, List.map_nil, rowNumber_u32, rowNumber_i32]⟩

theorem decTimeutc_numbers {P : Bytes} (h : 20 ≤ P.length) :
    ∃ r, decTimeutc P = some r ∧ recordNumbers (.timeutc r) = timeutcLayout.map (rowNumber P) :=
  ⟨_, by rw [decTimeutc, if_neg (by omega)], by
    simp only [recordNumbers, timeutcLayout, List.map_cons, List.map_nil, rowNumber_u8, rowNumber_u16, rowNumber_u32,
      rowNumber_i32]⟩

theorem decRecord_eq_none {T : RecType} {P : Bytes} (h : P.length < minLen T) : decRecord T P = none := by
  rcases decRecord_cases T P with ⟨-, hn⟩ | ⟨hl, -⟩
  · exact hn
  · omega

/-- Settles O17: type by type. -/
theorem decodersReadEveryField : Obligations.DecodersReadEveryField := by
  refine fun T P => ⟨decRecord_eq_none, fun hl => ?_⟩
  cases T with
  | pvt => obtain ⟨r, hr, hn⟩ := decPvt_numbers hl; exact ⟨.pvt r, by rw [decRecord, hr]; rfl, rfl, hn⟩
  | posecef => obtain ⟨r, hr, hn⟩ := decPosecef_numbers hl; exact ⟨.posecef r, by rw [decRecord, hr]; rfl, rfl, hn⟩
  | velecef => obtain ⟨r, hr, hn⟩ := decVelecef_numbers hl; exact ⟨.velecef r, by rw [decRecord, hr]; rfl, rfl, hn⟩
  | timeutc => obtain ⟨r, hr, hn⟩ := decTimeutc_numbers hl; exact ⟨.timeutc r, by rw [decRecord, hr]; rfl, rfl, hn⟩

/-! ### The bytes a record depends on -/

/-- The bytes of a payload that a decoder reads: those below the minimum length that are not reserved (R78, R85). -/
def decoderReads (T : RecType) (k : Nat) : Prop := k < minLen T ∧ (T = .pvt → k < 78 ∨ 84 ≤ k)

/-- Payloads that agree on the bytes the decoder reads decode to one record. -/
theorem decRecord_congr {T : RecType} {P Q : Bytes} (hP : minLen T ≤ P.length) (hQ : minLen T ≤ Q.length)
    (h : ∀ k, decoderReads T k → byteAt P k = byteAt Q k) : decRecord T P = decRecord T Q := by
  have h8 (off : Nat) (ho : decoderReads T off) : field8 P off = field8 Q off :=
    congrArg _ (memRead_congr fun j hj => h _ (by rw [show off + j = off by omega]; exact ho))
  have h16 (off : Nat) (ho : ∀ j < 2, decoderReads T (off + j)) : field16 P off = field16 Q off :=
    congrArg _ (memRead_congr fun j hj => h _ (ho j hj))
  have h32 (off : Nat) (ho : ∀ j < 4, decoderReads T (off + j)) : field32 P off = field32 Q off :=
    congrArg _ (memRead_congr fun j hj => h _ (ho j hj))
  simp only [decoderReads] at h8 h16 h32
  cases T <;> simp only [minLen] at hP hQ h8 h16 h32
  · simp (disch := omega) only [decRecord, decPvt, if_neg, h8, h16, h32]
  · simp (disch := omega) only [decRecord, decPosecef, if_neg, h32]
  · simp (disch := omega) only [decRecord, decVelecef, if_neg, h32]
  · simp (disch := omega) only [decRecord, decTimeutc, if_neg, h8, h16, h32]

/-- Settles O18: the bytes past the minimum are none of those the decoder reads. -/
theorem decodersIgnoreBytesPastMinimum : Obligations.DecodersIgnoreBytesPastMinimum := by
  refine ⟨rfl, rfl, rfl, rfl, fun T P X => ⟨decRecord_eq_none, fun hl => ⟨?_, ?_⟩⟩⟩
  · obtain ⟨r, hr, -⟩ := (decodersReadEveryField T P).2 hl
    rw [hr]; rfl
  · have hlen : (P.take (minLen T)).length = minLen T := by rw [List.length_take, min_eq_left hl]
    refine decRecord_congr (by rw [List.length_append, hlen]; omega) hl fun k ⟨hk, _⟩ => ?_
    rw [byteAt_append_left X (by omega), byteAt_take hk (by omega)]

/-- Settles O19: the reserved bytes are none of those the decoder reads. -/
theorem pvtReservedBytesReachNoField : Obligations.PvtReservedBytesReachNoField := by
  intro P Q hP hPQ h
  have hdec : decRecord .pvt P = decRecord .pvt Q :=
    decRecord_congr hP (by rw [← hPQ]; exact hP) fun k ⟨hk, hres⟩ => h k hk (hres rfl)
  exact Option.map_injective (fun _ _ => Record.pvt.inj) hdec

/-! ### The solution -/

/-- A field of the SOL payload holds the pattern written to it. -/
theorem ofNat_memRead_solPayload {week : BitVec 16} {V : PvtRecord} {pos : Option PosecefRecord} {E : VelecefRecord}
    {off n w : Nat} {v : BitVec w} (hw : w = 8 * n) (hm : (off, n, v.toNat) ∈ solWrites week V pos E) :
    BitVec.ofNat w (memRead (solPayload week V pos E) off n) = v := by
  have hpow : 256 ^ n = 2 ^ w := by rw [hw, Nat.pow_mul]
  rw [memRead_solPayload hm, hpow, Nat.mod_eq_of_lt v.isLt, BitVec.ofNat_toNat, BitVec.setWidth_eq]

theorem field8_solPayload {week : BitVec 16} {V : PvtRecord} {pos : Option PosecefRecord} {E : VelecefRecord}
    {off : Nat} (v : BitVec 8) (hm : (off, 1, v.toNat) ∈ solWrites week V pos E) :
    field8 (solPayload week V pos E) off = v := ofNat_memRead_solPayload rfl hm

theorem field16_solPayload {week : BitVec 16} {V : PvtRecord} {pos : Option PosecefRecord} {E : VelecefRecord}
    {off : Nat} (v : BitVec 16) (hm : (off, 2, v.toNat) ∈ solWrites week V pos E) :
    field16 (solPayload week V pos E) off = v := ofNat_memRead_solPayload rfl hm

theorem field32_solPayload {week : BitVec 16} {V : PvtRecord} {pos : Option PosecefRecord} {E : VelecefRecord}
    {off : Nat} (v : BitVec 32) (hm : (off, 4, v.toNat) ∈ solWrites week V pos E) :
    field32 (solPayload week V pos E) off = v := ofNat_memRead_solPayload rfl hm

/-- The numbers of the SOL payload's fields, in the order of its layout: each that of the pattern written there. -/
theorem solPayload_numbers (week : BitVec 16) (V : PvtRecord) (pos : Option PosecefRecord) (E : VelecefRecord) :
    solLayout.map (rowNumber (solPayload week V pos E)) =
      [(V.iTOW.toNat : Int), V.nano.toInt, week.toInt, V.fixType.toNat, (solFlags V).toNat] ++
      [(solPosition pos).1.toInt, (solPosition pos).2.1.toInt, (solPosition pos).2.2.1.toInt,
        ((solPosition pos).2.2.2.toNat : Int)] ++
      [E.ecefVX.toInt, E.ecefVY.toInt, E.ecefVZ.toInt, (E.sAcc.toNat : Int), V.pDOP.toNat, 0, V.numSV.toNat, 0] := by
  simp only [solLayout, List.map_append, List.map_cons, List.map_nil, rowNumber_u8, rowNumber_u16, rowNumber_u32,
    rowNumber_i16, rowNumber_i32]
  rw [field32_solPayload V.iTOW (by simp [solWrites]), field32_solPayload V.nano (by simp [solWrites]),
    field16_solPayload week (by simp [solWrites]), field8_solPayload V.fixType (by simp [solWrites]),
    field8_solPayload (solFlags V) (by simp [solWrites]),
    field32_solPayload (solPosition pos).1 (by simp [solWrites]),
    field32_solPayload (solPosition pos).2.1 (by simp [solWrites]),
    field32_solPayload (solPosition pos).2.2.1 (by simp [solWrites]),
    field32_solPayload (solPosition pos).2.2.2 (by simp [solWrites]),
    field32_solPayload E.ecefVX (by simp [solWrites]), field32_solPayload E.ecefVY (by simp [solWrites]),
    field32_solPayload E.ecefVZ (by simp [solWrites]), field32_solPayload E.sAcc (by simp [solWrites]),
    field16_solPayload V.pDOP (by simp [solWrites]), field8_solPayload (off := 46) 0 (by simp [solWrites]),
    field8_solPayload V.numSV (by simp [solWrites]), field32_solPayload (off := 48) 0 (by simp [solWrites])]
  rfl

/-- Settles O23: the payload's numbers, with the position that of the slot or zeros. -/
theorem solPayloadFieldSources : Obligations.SolPayloadFieldSources := by
  intro s V E hV hE
  refine ⟨solPayload s.pins.cfgWeek V s.slotPos E, by rw [State.synth, hV, hE], solPayload_length .., ?_⟩
  rw [solPayload_numbers]
  cases s.slotPos with
  | none => rfl
  | some p => rfl

/-- Settles O22: the gate's two cases. -/
theorem synthGatedByPvtAndVelocity : Obligations.SynthGatedByPvtAndVelocity := by
  intro s
  rcases synth_cases s with ⟨h, hn⟩ | ⟨V, E, hV, hE, hs⟩
  · simpa [hn, State.pvtV, State.velV] using h
  · simp [hs, hV, hE, State.pvtV, State.velV]

theorem getLsbD_bitZext8 (v : BitVec 8) (i j : Nat) :
    (bitZext8 v i).getLsbD j = (decide (j = 0) && v.getLsbD i) := by
  rw [bitZext8, BitVec.getLsbD_ofNat]
  cases v.getLsbD i
  · simp
  · cases j with
    | zero => rfl
    | succ j => simp [Nat.testBit_succ]

/-- A bit moved to place `k` of a byte is there and nowhere else. -/
theorem getLsbD_bitZext8_shiftLeft (v : BitVec 8) (i : Nat) {k : Nat} (hk : k < 8) (j : Nat) :
    (bitZext8 v i <<< k).getLsbD j = (decide (j = k) && v.getLsbD i) := by
  rw [BitVec.getLsbD_shiftLeft, getLsbD_bitZext8]
  by_cases hj : j = k
  · simp [hj, hk]
  · simp [hj]; omega

/-- Settles O24: each bit of the four that are moved together. -/
theorem solFlagsBitByBit : Obligations.SolFlagsBitByBit := by
  intro V
  have hbit (j : Nat) : (solFlags V).getLsbD j =
      (decide (j = 0) && V.flags.getLsbD 0 || decide (j = 1) && V.flags.getLsbD 1 ||
        decide (j = 2) && V.valid.getLsbD 1 || decide (j = 3) && V.valid.getLsbD 1) := by
    simp only [solFlags, solFlagsOf, BitVec.getLsbD_or, getLsbD_bitZext8_shiftLeft, Nat.reduceLT]
  refine ⟨by rw [hbit]; simp, by rw [hbit]; simp, by rw [hbit]; simp, by rw [hbit]; simp, fun i hi => ?_⟩
  simp [hbit, show i ≠ 0 by omega, show i ≠ 1 by omega, show i ≠ 2 by omega, show i ≠ 3 by omega]

/-- Settles O25: the payload `SYNTH` gives has 52 bytes; the rest is the encoder's. -/
theorem solFrameHeaderAndLength : Obligations.SolFrameHeaderAndLength := by
  intro s S hS
  obtain ⟨V, E, -, -, rfl⟩ := synth_eq_some hS
  have hlen := solPayload_length s.pins.cfgWeek V s.slotPos E
  refine ⟨by rw [encodeFrame_length, hlen], ?_, ?_⟩
  · rw [encodeFrame_eq_cons, hlen]; rfl
  · conv_lhs => rw [← hlen, encodeFrame_payload]

end Sys2Proof.Machine
end

section
/-! PROOFS. What each instruction does, as one equation per case, and from these everything a dispatch can do said once
(45_stream_controller.md R184 to R188). -/

namespace Sys2Proof.Machine

/-! ### One equation per case -/

theorem push_pushFrame (u : State) (e : OutEvent) (cls id : Byte) (P : Bytes) :
    (u.push e).pushFrame cls id P = { u with outq := u.outq ++ [e, .frame (encodeFrame u.build cls id P)] } := by
  simp [State.push, State.pushFrame]

theorem decodeAndForward_of_short {T : RecType} {P : Bytes} (h : P.length < minLen T) (s : State) :
    decodeAndForward T P s = { s with
      trace := s.trace ++ [.payloadTooShort], outq := s.outq ++ [.frame (encodeFrame s.build 0x01 (recId T) P)] } := by
  rw [decodeAndForward, decRecord_eq_none h]; rfl

theorem decodeAndForward_of_record {T : RecType} {P : Bytes} {r : Record} (h : decRecord T P = some r) (s : State) :
    decodeAndForward T P s = { s.aggUpdate r with
      outq := s.outq ++ [.record T (P.take (minLen T)), .frame (encodeFrame s.build 0x01 (recId T) P)] } := by
  rw [decodeAndForward, h]
  simp only [push_pushFrame, State.aggUpdate_outq, State.aggUpdate_build]

/-- Settles O26: the record exists by the decoder's cases, and the dispatch lands and queues it. -/
theorem recordMessagesDecodeRecordForward : Obligations.RecordMessagesDecodeRecordForward := by
  refine fun P s => ⟨fun h => ?_, fun h => ?_, fun h => ?_⟩
  · obtain ⟨r, hr, -⟩ := decPvt_numbers h
    exact ⟨r, hr, congrArg _ (decodeAndForward_of_record (T := .pvt) (by rw [decRecord, hr]; rfl) s)⟩
  · obtain ⟨r, hr, -⟩ := decPosecef_numbers h
    exact ⟨r, hr, congrArg _ (decodeAndForward_of_record (T := .posecef) (by rw [decRecord, hr]; rfl) s)⟩
  · obtain ⟨r, hr, -⟩ := decTimeutc_numbers h
    exact ⟨r, hr, congrArg _ (decodeAndForward_of_record (T := .timeutc) (by rw [decRecord, hr]; rfl) s)⟩

/-- Settles O27: the synthesis reads the state in which the new record has landed. -/
theorem velecefDecodesForwardsSynthesizes : Obligations.VelecefDecodesForwardsSynthesizes := by
  intro P s h
  rcases execVelecef_cases P s with ⟨hshort, -⟩ | ⟨-, r, hr, hexec⟩
  · omega
  refine ⟨r, hr, fun V hV => ?_, fun hV => ?_⟩
  · rw [exec, hexec, push_pushFrame]
    simp [State.synthesize, State.synth, State.pushFrame, State.push, State.aggUpdate, hV]
  · rw [exec, hexec, push_pushFrame]
    simp [State.synthesize, State.synth, State.note, State.aggUpdate, hV]

/-- Settles O28: no decoder gives a record of a short payload. -/
theorem shortPayloadOnlyForwards : Obligations.ShortPayloadOnlyForwards := by
  refine fun P s => ⟨fun h => ?_, fun h => ?_, fun h => ?_, fun h => ?_⟩
  · exact congrArg _ (decodeAndForward_of_short (T := .pvt) h s)
  · exact congrArg _ (decodeAndForward_of_short (T := .posecef) h s)
  · rcases execVelecef_cases P s with ⟨-, hexec⟩ | ⟨hlong, -⟩
    · rw [exec, hexec]; rfl
    · omega
  · exact congrArg _ (decodeAndForward_of_short (T := .timeutc) h s)

/-- Settles O30: it is what `NAV-OTHER` means. -/
theorem navOtherOnlyForwards : Obligations.NavOtherOnlyForwards := fun _ _ _ => rfl

/-- Settles O31: by the configuration input. -/
theorem foreignFollowsConfiguration : Obligations.ForeignFollowsConfiguration :=
  fun _ _ _ _ => ⟨fun h => by rw [exec, execForeign, if_pos h]; rfl, fun h => by rw [exec, execForeign, h]; rfl⟩

/-- Settles O32: the synthesis's two cases. -/
theorem solQueuesSolutionFrame : Obligations.SolQueuesSolutionFrame := by
  intro s
  refine ⟨fun V E hV hE => ?_, fun h => ?_⟩
  · simp [exec, execSol, State.synthesize, State.synth, hV, hE, State.pushFrame, State.push]
  · rcases synthesize_cases s with ⟨-, hs⟩ | ⟨V, E, hV, hE, -⟩
    · rw [exec, execSol, hs]; rfl
    · simp [hV, hE] at h

/-! ### Everything a dispatch can do -/

/-- The instruction of a decoded type. -/
def decodedInstr : RecType → Bytes → Instr
  | .pvt => .pvt
  | .posecef => .posecef
  | .velecef => .velecef
  | .timeutc => .timeutc

theorem selectInstr_recId (T : RecType) (P : Bytes) : selectInstr 0x01 (recId T) P = decodedInstr T P := by
  cases T <;> rfl

theorem decodedInstr_inj {T U : RecType} {P Q : Bytes} (h : decodedInstr T P = decodedInstr U Q) : T = U ∧ P = Q := by
  cases T <;> cases U <;> simp_all [decodedInstr]

/-- The results of a dispatch (R184): the state after instruction `i` run in `s`. -/
inductive Dispatched (s : State) (i : Instr) : State → Prop where
  /-- A short payload of a decoded id is only forwarded. -/
  | short (T : RecType) (P : Bytes) (hi : i = decodedInstr T P) (hl : P.length < minLen T) :
    Dispatched s i { s with
      trace := s.trace ++ [.payloadTooShort], outq := s.outq ++ [.frame (encodeFrame s.build 0x01 (recId T) P)] }
  /-- Any other payload lands its record; the record event and the frame are queued. -/
  | landed (T : RecType) (P : Bytes) (r : Record) (hi : i = decodedInstr T P) (hT : T ≠ .velecef)
      (hl : minLen T ≤ P.length) (hr : decRecord T P = some r) :
    Dispatched s i { s.aggUpdate r with
      outq := s.outq ++ [.record T (P.take (minLen T)), .frame (encodeFrame s.build 0x01 (recId T) P)] }
  /-- A velocity record lands while no PVT record is held. -/
  | velocityAlone (P : Bytes) (r : VelecefRecord) (hi : i = .velecef P) (hl : 20 ≤ P.length)
      (hr : decVelecef P = some r) (hV : s.slotPvt = none) :
    Dispatched s i { s with
      slotVel := some r
      outq := s.outq ++ [.record .velecef (P.take 20), .frame (encodeFrame s.build 0x01 0x11 P)]
      trace := s.trace ++ [.missingPrerequisite] }
  /-- A velocity record lands while a PVT record is held: the solution follows. -/
  | velocitySolution (P : Bytes) (r : VelecefRecord) (V : PvtRecord) (hi : i = .velecef P) (hl : 20 ≤ P.length)
      (hr : decVelecef P = some r) (hV : s.slotPvt = some V) :
    Dispatched s i { s with
      slotVel := some r
      outq := s.outq ++ [.record .velecef (P.take 20), .frame (encodeFrame s.build 0x01 0x11 P),
        .frame (encodeFrame s.build 0x01 0x06 (solPayload s.pins.cfgWeek V s.slotPos r))] }
  /-- A message of class 0x01 that no decoder reads is forwarded. -/
  | navOther (id : Byte) (P : Bytes) (hi : i = .navOther id P) :
    Dispatched s i { s with outq := s.outq ++ [.frame (encodeFrame s.build 0x01 id P)] }
  /-- A foreign message is forwarded if so configured. -/
  | foreign (cls id : Byte) (P : Bytes) (hi : i = .foreign cls id P) (hf : s.pins.cfgFwdForeign = true) :
    Dispatched s i { s with outq := s.outq ++ [.frame (encodeFrame s.build cls id P)] }
  /-- Else a foreign message is dropped. -/
  | foreignDropped (cls id : Byte) (P : Bytes) (hi : i = .foreign cls id P) (hf : s.pins.cfgFwdForeign = false) :
    Dispatched s i s
  /-- The synthesis run by itself, with data. -/
  | solution (V : PvtRecord) (E : VelecefRecord) (hi : i = .sol) (hV : s.slotPvt = some V) (hE : s.slotVel = some E) :
    Dispatched s i { s with
      outq := s.outq ++ [.frame (encodeFrame s.build 0x01 0x06 (solPayload s.pins.cfgWeek V s.slotPos E))] }
  /-- The synthesis run by itself, without. -/
  | noSolution (hi : i = .sol) (h : s.slotPvt = none ∨ s.slotVel = none) :
    Dispatched s i { s with trace := s.trace ++ [.missingPrerequisite] }

theorem dispatched_decodeAndForward {T : RecType} (hT : T ≠ .velecef) (P : Bytes) (s : State) :
    Dispatched s (decodedInstr T P) (decodeAndForward T P s) := by
  rcases decRecord_cases T P with ⟨hl, -⟩ | ⟨hl, r, hr, -⟩
  · rw [decodeAndForward_of_short hl]; exact .short T P rfl hl
  · rw [decodeAndForward_of_record hr]; exact .landed T P r rfl hT hl hr

/-- Everything an instruction can do. -/
theorem exec_dispatched {i : Instr} {s t : State} (h : exec i s = .next t) : Dispatched s i t := by
  cases i with
  | pvt P => cases h; exact dispatched_decodeAndForward (T := .pvt) (by decide) P s
  | posecef P => cases h; exact dispatched_decodeAndForward (T := .posecef) (by decide) P s
  | timeutc P => cases h; exact dispatched_decodeAndForward (T := .timeutc) (by decide) P s
  | velecef P =>
    by_cases hl : P.length < 20
    · rw [(shortPayloadOnlyForwards P s).2.2.1 hl] at h
      cases h; exact .short .velecef P rfl hl
    · obtain ⟨r, hr, hsol, halone⟩ := velecefDecodesForwardsSynthesizes P s (by omega)
      cases hV : s.slotPvt with
      | none => rw [halone hV] at h; cases h; exact .velocityAlone P r rfl (by omega) hr hV
      | some V => rw [hsol V hV] at h; cases h; exact .velocitySolution P r V rfl (by omega) hr hV
  | navOther id P => cases h; exact .navOther id P rfl
  | foreign cls id P =>
    obtain ⟨hfwd, hdrop⟩ := foreignFollowsConfiguration cls id P s
    cases hf : s.pins.cfgFwdForeign with
    | true => rw [hfwd hf] at h; cases h; exact .foreign cls id P rfl hf
    | false => rw [hdrop hf] at h; cases h; exact .foreignDropped cls id P rfl hf
  | sol =>
    obtain ⟨hsol, hnone⟩ := solQueuesSolutionFrame s
    rcases synth_cases s with ⟨hno, -⟩ | ⟨V, E, hV, hE, -⟩
    · rw [hnone hno] at h; cases h; exact .noSolution rfl hno
    · rw [hsol V E hV hE] at h; cases h; exact .solution V E rfl hV hE

end Sys2Proof.Machine
end

section
/-! PROOFS. What no instruction touches, and which instruction lands a record, queues what, and synthesizes
(45_stream_controller.md R184 to R188, 42_decoders.md R135). -/

namespace Sys2Proof.Machine

/-! ### The frame of a dispatch -/

/-- The block's other elements and the host's side are untouched. -/
theorem exec_keeps {i : Instr} {s t : State} (h : exec i s = .next t) :
    t.buf = s.buf ∧ t.phase = s.phase ∧ t.fatalCause = s.fatalCause ∧ t.build = s.build ∧ t.pins = s.pins ∧
      t.source = s.source ∧ t.host = s.host ∧ t.log = s.log := by
  cases exec_dispatched h <;> simp

/-- The output queue grows at its end, by at most three events, and the trace at its. -/
theorem exec_grows {i : Instr} {s t : State} (h : exec i s = .next t) :
    (∃ more, t.outq = s.outq ++ more ∧ more.length ≤ 3) ∧ ∃ more, t.trace = s.trace ++ more := by
  cases exec_dispatched h with
  | short => exact ⟨⟨_, rfl, by simp⟩, _, rfl⟩
  | landed T P r => exact ⟨⟨_, rfl, by simp⟩, [], by simp⟩
  | velocityAlone => exact ⟨⟨_, rfl, by simp⟩, _, rfl⟩
  | velocitySolution => exact ⟨⟨_, rfl, by simp⟩, [], by simp⟩
  | navOther => exact ⟨⟨_, rfl, by simp⟩, [], by simp⟩
  | foreign => exact ⟨⟨_, rfl, by simp⟩, [], by simp⟩
  | foreignDropped => exact ⟨⟨[], by simp, by simp⟩, [], by simp⟩
  | solution => exact ⟨⟨_, rfl, by simp⟩, [], by simp⟩
  | noSolution => exact ⟨⟨[], by simp, by simp⟩, _, rfl⟩

/-- Settles O33: a slot that changed would take the decoded record, whose type names the instruction. -/
theorem dispatchFrame : Obligations.DispatchFrame := by
  intro i s t h
  obtain ⟨hbuf, hphase, hcause, hbuild, hpins, hsource, hhost, hlog⟩ := exec_keeps h
  obtain ⟨hq, htr⟩ := exec_grows h
  have hslots := exec_slots h
  refine ⟨hbuf, hphase, hcause, hbuild, hpins, hsource, hhost, hlog, hq, htr, ?_⟩
  cases hrec : decodedRecord i with
  | none =>
    rw [hrec, Option.elim_none, slots_eq_iff] at hslots
    obtain ⟨hPvt, hPos, hVel, hUtc⟩ := hslots
    exact ⟨fun _ => hPvt, fun _ => hPos, fun _ => hVel, fun _ => hUtc⟩
  | some r =>
    rw [hrec, Option.elim_some, slots_eq_iff] at hslots
    obtain ⟨hPvt, hPos, hVel, hUtc⟩ := hslots
    rw [hPvt, hPos, hVel, hUtc]
    refine ⟨fun hi => ?_, fun hi => ?_, fun hi => ?_, fun hi => ?_⟩ <;> by_contra hne
    · obtain ⟨v, rfl, -⟩ := aggUpdate_slotPvt_of_ne hne
      obtain ⟨P, rfl, -⟩ := decodedRecord_eq_pvt hrec
      exact hi P rfl
    · obtain ⟨v, rfl, -⟩ := aggUpdate_slotPos_of_ne hne
      obtain ⟨P, rfl, -⟩ := decodedRecord_eq_posecef hrec
      exact hi P rfl
    · obtain ⟨v, rfl, -⟩ := aggUpdate_slotVel_of_ne hne
      obtain ⟨P, rfl, -⟩ := decodedRecord_eq_velecef hrec
      exact hi P rfl
    · obtain ⟨v, rfl, -⟩ := aggUpdate_slotUtc_of_ne hne
      obtain ⟨P, rfl, -⟩ := decodedRecord_eq_timeutc hrec
      exact hi P rfl

/-! ### What is queued and noted -/

/-- The record event an instruction queues: none for a short payload and for a message no decoder reads (R188, D16). -/
def recordEvents : Instr → List OutEvent
  | .pvt P => if 92 ≤ P.length then [.record .pvt (P.take 92)] else []
  | .posecef P => if 20 ≤ P.length then [.record .posecef (P.take 20)] else []
  | .velecef P => if 20 ≤ P.length then [.record .velecef (P.take 20)] else []
  | .timeutc P => if 20 ≤ P.length then [.record .timeutc (P.take 20)] else []
  | .navOther .. | .foreign .. | .sol => []

theorem fields_decodedInstr (T : RecType) (P : Bytes) : (decodedInstr T P).fields = some (0x01, recId T, P) := by
  cases T <;> rfl

theorem recordEvents_decodedInstr (T : RecType) (P : Bytes) :
    recordEvents (decodedInstr T P) = if minLen T ≤ P.length then [.record T (P.take (minLen T))] else [] := by
  cases T <;> rfl

/-- What a dispatch queues (R188): the record event, then the message's own frame, which only a foreign message and SOL
may lack, then the solution, which only VELECEF and SOL may have. -/
theorem exec_events {i : Instr} {s t : State} (h : exec i s = .next t) :
    ∃ fwd sols, t.outq = s.outq ++ recordEvents i ++ fwd ++ sols ∧
      ((fwd = [] ∧ (i = .sol ∨ ∃ cls id P, i = .foreign cls id P)) ∨
        ∃ cls id P, i.fields = some (cls, id, P) ∧ fwd = [.frame (encodeFrame s.build cls id P)]) ∧
      (sols = [] ∨ ∃ S, S.length = 52 ∧ sols = [.frame (encodeFrame s.build 0x01 0x06 S)] ∧
        (i = .sol ∨ ∃ P, i = .velecef P)) := by
  cases exec_dispatched h with
  | short T P hi hl =>
    subst hi
    exact ⟨[_], [], by simp [recordEvents_decodedInstr, hl], .inr ⟨_, _, _, fields_decodedInstr T P, rfl⟩, .inl rfl⟩
  | landed T P r hi hT hl hr =>
    subst hi
    exact ⟨[_], [], by simp [recordEvents_decodedInstr, hl], .inr ⟨_, _, _, fields_decodedInstr T P, rfl⟩, .inl rfl⟩
  | velocityAlone P r hi hl =>
    subst hi
    exact ⟨[_], [], by simp [recordEvents, hl], .inr ⟨_, _, _, rfl, rfl⟩, .inl rfl⟩
  | velocitySolution P r V hi hl =>
    subst hi
    exact ⟨[_], [_], by simp [recordEvents, hl], .inr ⟨_, _, _, rfl, rfl⟩,
      .inr ⟨_, solPayload_length s.pins.cfgWeek V s.slotPos r, rfl, .inr ⟨P, rfl⟩⟩⟩
  | navOther id P hi =>
    subst hi
    exact ⟨[_], [], by simp [recordEvents], .inr ⟨_, _, _, rfl, rfl⟩, .inl rfl⟩
  | foreign cls id P hi =>
    subst hi
    exact ⟨[_], [], by simp [recordEvents], .inr ⟨_, _, _, rfl, rfl⟩, .inl rfl⟩
  | foreignDropped cls id P hi =>
    subst hi
    exact ⟨[], [], by simp [recordEvents], .inl ⟨rfl, .inr ⟨_, _, _, rfl⟩⟩, .inl rfl⟩
  | solution V E hi =>
    subst hi
    exact ⟨[], [_], by simp [recordEvents], .inl ⟨rfl, .inl rfl⟩,
      .inr ⟨_, solPayload_length s.pins.cfgWeek V s.slotPos E, rfl, .inl rfl⟩⟩
  | noSolution hi =>
    subst hi
    exact ⟨[], [], by simp [recordEvents], .inl ⟨rfl, .inl rfl⟩, .inl rfl⟩

/-- The record event comes first, and all the other events are frames. -/
theorem exec_outq {i : Instr} {s t : State} (h : exec i s = .next t) :
    ∃ frames, t.outq = s.outq ++ recordEvents i ++ frames ∧ ∀ e ∈ frames, ∃ F, e = .frame F := by
  obtain ⟨fwd, sols, hq, hfwd, hsols⟩ := exec_events h
  refine ⟨fwd ++ sols, by rw [hq, List.append_assoc], fun e he => ?_⟩
  rcases List.mem_append.1 he with he | he
  · rcases hfwd with ⟨rfl, -⟩ | ⟨cls, id, P, -, rfl⟩
    · cases he
    · exact ⟨_, List.mem_singleton.1 he⟩
  · rcases hsols with rfl | ⟨S, -, rfl, -⟩
    · cases he
    · exact ⟨_, List.mem_singleton.1 he⟩

/-- Settles O34: VELECEF with its record lands in the synthesis's two cases; every other dispatch queues at most two
events and notes at most a short payload. -/
theorem synthesisOnlyOnVelocityRecord : Obligations.SynthesisOnlyOnVelocityRecord := by
  intro i s t hsol h
  cases exec_dispatched h with
  | short T P hi hl =>
    have hno : ¬ ∃ Q, i = .velecef Q ∧ 20 ≤ Q.length := by
      rintro ⟨Q, rfl, hQ⟩
      obtain ⟨rfl, rfl⟩ := decodedInstr_inj (T := .velecef) hi
      exact absurd hQ (by simpa [minLen] using hl)
    simpa using hno
  | landed T P r hi hT hl hr =>
    have hno : ¬ ∃ Q, i = .velecef Q ∧ 20 ≤ Q.length := by
      rintro ⟨Q, rfl, -⟩
      obtain ⟨rfl, -⟩ := decodedInstr_inj (T := .velecef) hi
      exact hT rfl
    simpa using hno
  | velocityAlone P r hi hl => exact iff_of_true (.inr rfl) ⟨P, hi, hl⟩
  | velocitySolution P r V hi hl => exact iff_of_true (.inl (by simp)) ⟨P, hi, hl⟩
  | navOther id P hi => simp [hi]
  | foreign cls id P hi => simp [hi]
  | foreignDropped cls id P hi => simp [hi]
  | solution V E hi => exact absurd hi hsol
  | noSolution hi => exact absurd hi hsol

/-! ### The decoder a frame runs -/

theorem decodedRecord_decodedInstr (T : RecType) (P : Bytes) : decodedRecord (decodedInstr T P) = decRecord T P := by
  cases T <;> rfl

/-- A frame whose class or id is no decoder's selects a message that is only forwarded or dropped. -/
theorem selectInstr_of_no_decoder {cls id : Byte} (h : cls ≠ 0x01 ∨ ∀ T, id ≠ recId T) (P : Bytes) :
    selectInstr cls id P = .navOther id P ∨ selectInstr cls id P = .foreign cls id P := by
  rcases selectInstr_cases cls id P with ⟨hc, hid, -⟩ | ⟨hc, hid, -⟩ | ⟨hc, hid, -⟩ | ⟨hc, hid, -⟩ |
    ⟨-, -, hs⟩ | ⟨-, hs⟩
  · exact absurd h (by rw [hc, hid]; simpa using ⟨.pvt, rfl⟩)
  · exact absurd h (by rw [hc, hid]; simpa using ⟨.posecef, rfl⟩)
  · exact absurd h (by rw [hc, hid]; simpa using ⟨.velecef, rfl⟩)
  · exact absurd h (by rw [hc, hid]; simpa using ⟨.timeutc, rfl⟩)
  · exact .inl hs
  · exact .inr hs

theorem exec_decodedInstr_of_short {T : RecType} {P : Bytes} (h : P.length < minLen T) (s : State) :
    exec (decodedInstr T P) s = .next { s with
      trace := s.trace ++ [.payloadTooShort], outq := s.outq ++ [.frame (encodeFrame s.build 0x01 (recId T) P)] } := by
  obtain ⟨hpvt, hpos, hvel, hutc⟩ := shortPayloadOnlyForwards P s
  cases T with
  | pvt => exact hpvt h
  | posecef => exact hpos h
  | velecef => exact hvel h
  | timeutc => exact hutc h

/-- A message that no decoder reads notes nothing. -/
theorem exec_forward_trace {i : Instr} {s t : State} (h : exec i s = .next t)
    (hi : (∃ id P, i = .navOther id P) ∨ ∃ cls id P, i = .foreign cls id P) : t.trace = s.trace := by
  rcases hi with ⟨id, P, rfl⟩ | ⟨cls, id, P, rfl⟩
  · cases h; rfl
  · rw [exec, execForeign] at h
    split at h
    · cases h; rfl
    · cases h; rfl

/-- Settles O29: a decoded id runs its decoder, whose answer decides the slot, the note and the first event; any other
message has no record to land and none to queue. -/
theorem decoderChosenById : Obligations.DecoderChosenById := by
  refine ⟨rfl, rfl, rfl, rfl, fun cls id P s t h => ⟨?_, fun hno => ?_⟩⟩
  · rintro T rfl rfl
    rw [selectInstr_recId] at h
    have hslots := exec_slots h
    rw [decodedRecord_decodedInstr] at hslots
    rcases decRecord_cases T P with ⟨hl, hn⟩ | ⟨hl, r, hr, -⟩
    · rw [exec_decodedInstr_of_short hl] at h
      cases h
      exact ⟨fun _ => ⟨rfl, rfl⟩, fun r hr => absurd hr (by rw [hn]; simp)⟩
    · obtain ⟨frames, hq, -⟩ := exec_outq h
      rw [recordEvents_decodedInstr, if_pos hl, List.append_assoc] at hq
      refine ⟨fun hn => absurd hn (by rw [hr]; simp), fun r' hr' => ⟨?_, frames, hq⟩⟩
      rw [hslots, hr']; rfl
  · obtain ⟨hrec, hev, hi⟩ : decodedRecord (selectInstr cls id P) = none ∧ recordEvents (selectInstr cls id P) = [] ∧
        ((∃ id' P', selectInstr cls id P = .navOther id' P') ∨
          ∃ cls' id' P', selectInstr cls id P = .foreign cls' id' P') := by
      rcases selectInstr_of_no_decoder hno P with hs | hs
      · rw [hs]; exact ⟨rfl, rfl, .inl ⟨_, _, rfl⟩⟩
      · rw [hs]; exact ⟨rfl, rfl, .inr ⟨_, _, _, rfl⟩⟩
    obtain ⟨frames, hq, hframes⟩ := exec_outq h
    refine ⟨by rw [exec_slots h, hrec]; rfl, exec_forward_trace h hi, fun e he T D => ?_⟩
    rw [hq, hev, List.append_nil, List.drop_left] at he
    obtain ⟨F, rfl⟩ := hframes e he
    simp

end Sys2Proof.Machine
end

section
/-! PROOFS. The steps of the controller one by one, the host's move and the ports (45_stream_controller.md R180 to R194,
60_exceptions.md R215 to R221, 70_reset_and_hazards.md R240, R241). -/

namespace Sys2Proof.Machine

/-! ### The block's step, by what enables it -/

theorem blockStep_of_scan {s : State} (hq : s.pins.Quiet) (hp : s.phase = .scan) (ho : s.outq = []) :
    s.blockStep = s.scan := by
  obtain ⟨hr, hs, hk⟩ := hq
  simp [State.blockStep, State.enabledStep, hr, hs, hk, hp, ho]

theorem blockStep_of_event {s : State} {e : OutEvent} {rest : List OutEvent} (hq : s.pins.Quiet) (hp : s.phase = .scan)
    (ho : s.outq = e :: rest) :
    s.blockStep =
      .next (if s.pins.readyFor e then { s with outq := rest, log := s.log ++ [e.toObs] } else s) := by
  obtain ⟨hr, hs, hk⟩ := hq
  cases hy : s.pins.readyFor e with
  | true =>
    rw [if_pos rfl, ← State.emit_cons _ ho]
    simp [State.blockStep, State.enabledStep, hr, hs, hk, hp, ho, hy]
  | false => simp [State.blockStep, State.enabledStep, hr, hs, hk, hp, ho, hy]

theorem blockStep_of_chunk {s : State} {c : Bytes} {rest : List Bytes} (hq : s.pins.Quiet) (hp : s.phase = .idle)
    (hc : takeChunk s.build.readMax s.source = some (c, rest)) :
    s.blockStep = .next { s with buf := s.buf ++ c, source := rest, phase := .scan } := by
  obtain ⟨hr, hs, hk⟩ := hq
  rw [← ingest_of_some hc]
  simp [State.blockStep, State.enabledStep, hr, hs, hk, hp, hc]

/-- With no move of the host to come, a step is the block's. -/
theorem step_eq_next {s t : State} (h : s.blockStep = .next t) (hh : t.host = []) : step s = .next t := by
  rw [step_eq_of_blockStep h, State.hostMove, hh]

/-- The block changes neither its build constants nor the host's pins and moves. -/
theorem blockStep_keeps_host_side {s t : State} (h : s.blockStep = .next t) :
    t.build = s.build ∧ t.pins = s.pins ∧ t.host = s.host := by
  rcases blockStep_cases h with ⟨-, rfl⟩ | ⟨-, -, -, rfl⟩ | ⟨-, -, -, -, rfl⟩ | ⟨-, -, c, rest, -, rfl⟩ |
    ⟨-, -, -, hscan⟩ | ⟨-, -, e, rest, -, -, rfl⟩ | ⟨-, rfl, -⟩
  · exact ⟨rfl, rfl, rfl⟩
  · exact ⟨rfl, rfl, rfl⟩
  · exact ⟨rfl, rfl, rfl⟩
  · exact ⟨rfl, rfl, rfl⟩
  · rcases scan_cases hscan with ⟨-, rfl⟩ | ⟨n, why, -, rfl⟩ | ⟨i, n, -, hexec⟩
    · exact ⟨rfl, rfl, rfl⟩
    · exact ⟨rfl, rfl, rfl⟩
    · obtain ⟨-, -, -, hbuild, hpins, -, hhost, -⟩ := exec_keeps hexec
      exact ⟨hbuild, hpins, hhost⟩
  · exact ⟨rfl, rfl, rfl⟩
  · exact ⟨rfl, rfl, rfl⟩

/-! ### SCAN -/

theorem scan_of_instr {s : State} {i : Instr} {n : Nat} (h : decode s.build s.buf = .instr i n) :
    s.scan = exec i (s.setBuf (s.buf.drop n)) := by rw [State.scan, h]

theorem decode_of_extract_frame {bd : Build} {B : Bytes} {cls id : Byte} {P : Bytes} {n : Nat}
    (h : extract bd B = .frame cls id P n) : decode bd B = .instr (selectInstr cls id P) n := by rw [decode, h]

theorem scan_of_needMoreBytes {s : State} (h : extract s.build s.buf = .needMoreBytes) :
    s.scan = .next ((s.note .incompleteFrame).setPhase .idle) := by rw [State.scan, decode, h]

theorem scan_of_discard {s : State} {n : Nat} {why : Condition} (h : extract s.build s.buf = .discard n why) :
    s.scan = .next ((s.note why).setBuf (s.buf.drop n)) := by rw [State.scan, decode, h]

/-- Settles O35: the scan of a decoded instruction is its dispatch, which leaves the host's moves. -/
theorem stepRunsDecodedInstruction : Obligations.StepRunsDecodedInstruction := by
  intro s i n hq hp ho hdec
  obtain ⟨t, ht⟩ := exec_next i (s.setBuf (s.buf.drop n))
  have hblock : s.blockStep = .next t := by rw [blockStep_of_scan hq hp ho, scan_of_instr hdec, ht]
  refine ⟨⟨t, ht, step_eq_of_blockStep hblock⟩, fun hh => ?_⟩
  obtain ⟨-, -, hhost⟩ := blockStep_keeps_host_side hblock
  rw [step_eq_next hblock (by rw [hhost, hh]), ← ht]; rfl

/-- Settles O36: the scan's two other results. -/
theorem scanWaitsOrDiscards : Obligations.ScanWaitsOrDiscards := by
  refine fun s hq hp ho hh => ⟨fun h => ?_, fun n why h => ?_⟩
  · exact step_eq_next (by rw [blockStep_of_scan hq hp ho, scan_of_needMoreBytes h]; rfl) hh
  · exact step_eq_next (by rw [blockStep_of_scan hq hp ho, scan_of_discard h]; rfl) hh

/-- The frame of a table word has one class, id and payload, whatever the build. -/
theorem tableFrame_eq_encodeFrame (nbits w : Nat) :
    ∃ cls id P, P.length ≤ 65535 ∧ ∀ bd, tableFrame bd nbits w = encodeFrame bd cls id P :=
  ⟨_, _, _, by rw [leBytes_length]; omega, fun _ => rfl⟩

/-- Settles O37: whatever the build, the word's frame is decoded to the same instruction and is all of `BUF`. -/
theorem fetchWordRunsTableInstruction : Obligations.FetchWordRunsTableInstruction := by
  intro s nbits w
  obtain ⟨cls, id, P, hP, hF⟩ := tableFrame_eq_encodeFrame nbits w
  have hdec (bd : Build) : decode bd (tableFrame bd nbits w) =
      .instr (selectInstr cls id P) (tableFrame bd nbits w).length := by
    rw [hF, encodeFrame_length, decode_of_extract_frame (extract_encodeFrame bd cls id hP)]
  refine ⟨selectInstr cls id P, by rw [decodeTableWord, hdec]; exact if_pos rfl, ?_⟩
  have hstep := (stepRunsDecodedInstruction (s.withFetchWord nbits w) _ _ ⟨rfl, rfl, rfl⟩ rfl rfl (hdec s.build)).2 rfl
  rw [hstep, State.withFetchWord, State.withFrame_buf, List.drop_length]

/-! ### INGEST and the wait in `IDLE` -/

/-- Settles O38: the chunk taken is the read, or its first `READ_MAX` bytes. -/
theorem ingestAppendsChunk : Obligations.IngestAppendsChunk := by
  intro s c rest hq hp hh hsrc hc
  obtain ⟨b, c, rfl⟩ := List.exists_cons_of_ne_nil hc
  refine ⟨fun hl => ?_, fun hl => ?_⟩
  · exact step_eq_next (blockStep_of_chunk hq hp (by rw [hsrc, takeChunk, if_pos hl])) hh
  · exact step_eq_next (blockStep_of_chunk hq hp (by rw [hsrc, takeChunk, if_neg (by omega)])) hh

theorem blockStep_of_no_chunk {s : State} (hq : s.pins.Quiet) (hp : s.phase = .idle)
    (hc : takeChunk s.build.readMax s.source = none) : s.blockStep = .next s := by
  obtain ⟨hr, hs, hk⟩ := hq
  simp [State.blockStep, State.enabledStep, hr, hs, hk, hp, hc]

/-- Settles O39: the invariant says what `BUF` holds in `IDLE`, which is what `EXTRACT` waits on. -/
theorem emptyReadChangesNothing : Obligations.EmptyReadChangesNothing := by
  refine fun s hinv hp => ⟨(extract_eq_needMoreBytes_iff _ _).2 (hinv.idleHolds hp), fun hq hh hsrc => ?_⟩
  exact step_eq_next (blockStep_of_no_chunk hq hp (takeChunk_eq_none_iff.2 hsrc)) hh

/-! ### EMIT and the two output ports -/

theorem outOffer_eq_some_iff (s : State) (beats : List (Byte × Bool)) : s.outOffer = some beats ↔
    s.pins.rst = false ∧ s.phase = .scan ∧ ∃ F rest, s.outq = .frame F :: rest ∧ beats = frameBeats F := by
  refine ⟨fun h => ?_, ?_⟩
  · unfold State.outOffer at h
    split at h
    · cases h
    · split at h
      · exact ⟨by simpa using ‹¬ s.pins.rst = true›, ‹_›, _, _, ‹_›, (Option.some.inj h).symm⟩
      · cases h
  · rintro ⟨hr, hp, F, rest, ho, rfl⟩
    simp [State.outOffer, hr, hp, ho]

theorem frameBeats_bytes (F : Bytes) : (frameBeats F).map Prod.fst = F := by
  induction F with
  | nil => rfl
  | cons b F ih =>
    cases F with
    | nil => rfl
    | cons c F => rw [frameBeats, List.map_cons, ih]

/-- `out_last` is on the last transfer and on no other. -/
theorem frameBeats_last (F : Bytes) {i : Nat} (h : i < F.length) :
    (frameBeats F)[i]?.map Prod.snd = some (decide (i + 1 = F.length)) := by
  induction F generalizing i with
  | nil => simp at h
  | cons b F ih =>
    cases F with
    | nil => obtain rfl : i = 0 := by simpa using h
             rfl
    | cons c F =>
      rw [frameBeats]
      cases i with
      | zero => simp
      | succ i => rw [List.getElem?_cons_succ, ih (by simpa using h)]; simp

theorem step_of_event {s : State} {e : OutEvent} {rest : List OutEvent} (hq : s.pins.Quiet) (hp : s.phase = .scan)
    (hh : s.host = []) (ho : s.outq = e :: rest) :
    (s.pins.readyFor e = true → step s = .next { s with outq := rest, log := s.log ++ [e.toObs] }) ∧
    (s.pins.readyFor e = false → step s = .next s) := by
  have hblock := blockStep_of_event hq hp ho
  exact ⟨fun hy => step_eq_next (by rw [hblock, if_pos hy]) hh,
    fun hy => step_eq_next (by rw [hblock, hy]; rfl) hh⟩

/-- Settles O40: the step of an event, and the output port's offer. -/
theorem emitTakesHeadOrWaits : Obligations.EmitTakesHeadOrWaits := by
  refine ⟨fun s e rest hq hp hh ho => ?_, outOffer_eq_some_iff,
    fun F => ⟨frameBeats_bytes F, fun i => frameBeats_last F⟩⟩
  obtain ⟨htaken, hwait⟩ := step_of_event hq hp hh ho
  refine ⟨htaken, hwait, ?_, ?_⟩
  · rintro F rfl
    exact ⟨rfl, (outOffer_eq_some_iff s _).2 ⟨hq.1, hp, F, rest, ho, rfl⟩, by simp [State.recOffer, hp, ho]⟩
  · rintro T D rfl
    exact ⟨rfl, by simp [State.outOffer, hp, ho]⟩

/-- Settles O41: the step of a record event, and the events of a dispatch. -/
theorem recordEventEmitted : Obligations.RecordEventEmitted := by
  refine ⟨fun s T D rest hq hp hh ho => ⟨by simp [State.recOffer, hq.1, hp, ho], step_of_event hq hp hh ho⟩,
    fun i s t h => ?_⟩
  obtain ⟨frames, hq, hframes⟩ := exec_outq h
  refine ⟨recordEvents i, frames, hq, hframes, fun T P hi hl => ?_, fun hshort => ?_⟩
  · rw [hi, selectInstr_recId, recordEvents_decodedInstr, if_pos hl]
  · cases i with
    | pvt P => exact if_neg (by have := hshort .pvt P rfl; simp only [minLen] at this; omega)
    | posecef P => exact if_neg (by have := hshort .posecef P rfl; simp only [minLen] at this; omega)
    | velecef P => exact if_neg (by have := hshort .velecef P rfl; simp only [minLen] at this; omega)
    | timeutc P => exact if_neg (by have := hshort .timeutc P rfl; simp only [minLen] at this; omega)
    | navOther id P => rfl
    | foreign cls id P => rfl
    | sol => rfl

end Sys2Proof.Machine
end

section
/-! PROOFS. Reset, fatal reports, the host's move, the ports in each phase, and what no step does: stop the block,
change its build constants, reach into the middle of `BUF`, lose an event or read `slotUTC` (60_exceptions.md R211 to
R221, 70_reset_and_hazards.md R240, R241, 10_state.md R23 to R32). -/

namespace Sys2Proof.Machine

/-! ### Reset and fatal reports -/

/-- A report outside `FATAL` enables `FAULT`, and `SINK` is looked at first (R215, D18). -/
theorem blockStep_of_report {s : State} (hr : s.pins.rst = false) (hp : s.phase ≠ .fatal)
    (h : s.pins.sinkFatal = true ∨ s.pins.srcFatal = true) :
    s.blockStep = .next (s.raiseFatal (if s.pins.sinkFatal then .sink else .source)) := by
  have henabled : s.enabledStep = .fault (if s.pins.sinkFatal then .sink else .source) := by
    cases hk : s.pins.sinkFatal with
    | true => cases hphase : s.phase <;> simp_all [State.enabledStep]
    | false => cases hphase : s.phase <;> simp_all [State.enabledStep]
  rw [State.blockStep, henabled]

/-- Settles O42: the two reports, with the tie rule. -/
theorem fatalReportEntersFatal : Obligations.FatalReportEntersFatal := by
  refine fun s hr hp hh => ⟨fun hk => ?_, fun hk hs => ?_⟩
  · exact step_eq_next (by rw [blockStep_of_report hr hp (.inl hk), hk]; rfl) hh
  · exact step_eq_next (by rw [blockStep_of_report hr hp (.inr hs), hk]; rfl) hh

/-- Settles O43: of what a step of the block can do, only `FAULT` leads to `FATAL`. -/
theorem fatalEnteredOnlyByReport : Obligations.FatalEnteredOnlyByReport := by
  intro s u hp hstep hu
  obtain ⟨t, ht, hut⟩ := step_cases hstep
  obtain ⟨hphase, hcause⟩ : u.phase = t.phase ∧ u.fatalCause = t.fatalCause := by
    rcases hut with ⟨-, rfl⟩ | ⟨m, rest, -, -, rfl⟩ <;> exact ⟨rfl, rfl⟩
  rw [hphase] at hu
  rw [hcause]
  rcases blockStep_cases ht with ⟨-, rfl⟩ | ⟨hr, -, hk, rfl⟩ | ⟨hr, -, hk, hs, rfl⟩ | ⟨-, -, c, rest, -, rfl⟩ |
    ⟨-, hscan, -, h⟩ | ⟨-, hscan, e, rest, -, -, rfl⟩ | ⟨-, rfl, -⟩
  · cases hu
  · exact ⟨hr, .inl ⟨hk, rfl⟩⟩
  · exact ⟨hr, .inr ⟨hk, hs, rfl⟩⟩
  · cases hu
  · have hne : t.phase ≠ .fatal := by
      rcases scan_cases h with ⟨-, rfl⟩ | ⟨n, why, -, rfl⟩ | ⟨i, n, -, hexec⟩
      · simp
      · simpa using hp
      · obtain ⟨-, hphase, -⟩ := exec_keeps hexec
        rw [hphase]; exact hp
    exact absurd hu hne
  · exact absurd hu hp
  · exact absurd hu hp

theorem blockStep_of_fatal {s : State} (hp : s.phase = .fatal) (hr : s.pins.rst = false) : s.blockStep = .next s := by
  simp [State.blockStep, State.enabledStep, hr, hp]

/-- Settles O44: in `FATAL` the block waits, and the host's move writes only its own side. -/
theorem fatalHoldsUntilReset : Obligations.FatalHoldsUntilReset := by
  intro s u hp hr hstep
  obtain ⟨t, ht, hu⟩ := step_cases hstep
  rw [blockStep_of_fatal hp hr] at ht
  cases ht
  rcases hu with ⟨-, rfl⟩ | ⟨m, rest, hh, -, rfl⟩
  · simp [hp]
  · simp [hp, hh]

/-- Settles O45: `rst` is looked at first. -/
theorem resetClearsTheBlock : Obligations.ResetClearsTheBlock := by
  intro s hr hh
  exact step_eq_next (by simp [State.blockStep, State.enabledStep, hr]; rfl) hh

/-- Settles O46: each value is written in `State.resetWith`. -/
theorem resetStateValues : Obligations.ResetStateValues :=
  ⟨rfl, rfl, rfl, rfl, rfl, rfl, rfl, rfl, rfl, rfl, rfl, rfl⟩

/-! ### The host's move -/

theorem configLegal_iff (m : HostMove) (p : Pins) : m.configLegal p = true ↔
    m.pins.rst = true ∨ (m.pins.cfgWeek = p.cfgWeek ∧ m.pins.cfgFwdForeign = p.cfgFwdForeign) := by
  simp [HostMove.configLegal]

/-- Settles O58: a legal move has its step; the block's step changes neither the pins nor the moves, so an illegal one
is refused after it. -/
theorem hostMoveSetsPinsOrIsRefused : Obligations.HostMoveSetsPinsOrIsRefused := by
  refine fun s => ⟨fun hh => by rw [State.hostMove, hh], fun m rest hh => ⟨fun hlegal => ?_, fun hr hne => ?_⟩⟩
  · rw [← configLegal_iff] at hlegal
    simp [State.hostMove, hh, hlegal]
  · obtain ⟨t, ht⟩ := blockStep_next s
    obtain ⟨-, hpins, hhost⟩ := blockStep_keeps_host_side ht
    have hillegal : ¬ m.configLegal t.pins = true := by
      rw [configLegal_iff, hpins, hr]
      rintro (h | ⟨hw, hf⟩)
      · cases h
      · exact hne.elim (absurd hw) (absurd hf)
    rw [step_eq_of_blockStep ht]
    simp [State.hostMove, hhost, hh, hillegal]

/-- Settles O50: the block always answers; only the host's move can be refused. -/
theorem noInputStopsTheBlock : Obligations.NoInputStopsTheBlock := by
  intro s
  obtain ⟨t, ht⟩ := blockStep_next s
  obtain ⟨-, hpins, hhost⟩ := blockStep_keeps_host_side ht
  refine ⟨fun f => (by cases f), fun r hr => ?_, fun hh => ⟨t, step_eq_next ht (by rw [hhost, hh])⟩⟩
  rw [step_eq_of_blockStep ht] at hr
  rcases hostMove_cases t with ⟨-, he⟩ | ⟨m, rest, hm, ⟨-, he⟩ | ⟨hl, he⟩⟩ <;> rw [he] at hr <;> cases hr
  exact ⟨rfl, m, rest, by rw [← hhost, hm], by rw [← hpins]; exact hl⟩

/-- Settles O51: the block writes neither; a host move into `rst` = 0 is legal only if it keeps the configuration. -/
theorem configurationHeldBetweenResets : Obligations.ConfigurationHeldBetweenResets := by
  intro s u hstep
  obtain ⟨t, ht, hu⟩ := step_cases hstep
  obtain ⟨hbuild, hpins, -⟩ := blockStep_keeps_host_side ht
  rcases hu with ⟨-, rfl⟩ | ⟨m, rest, -, hlegal, rfl⟩
  · exact ⟨hbuild, fun _ => by rw [hpins]; exact ⟨rfl, rfl⟩⟩
  · refine ⟨hbuild, fun hr => ?_⟩
    rw [configLegal_iff, hpins] at hlegal
    exact hlegal.resolve_left (by rw [hr]; simp)

/-! ### The ports -/

/-- Settles O60: phase by phase. -/
theorem portsFollowPhase : Obligations.PortsFollowPhase := by
  intro s
  refine ⟨by simp [State.inReady, and_comm], fun hr => ?_, fun hr hp => ?_, fun hr => by simp [State.fatalPort, hr], ?_⟩
  · simp [State.inReady, State.outOffer, State.recOffer, State.fatalPort, State.fatalCausePort, hr]
  · simp [State.inReady, State.outOffer, State.recOffer, State.fatalPort, State.fatalCausePort, hr, hp]
  · unfold State.fatalCausePort
    split
    · decide
    · cases s.fatalCause <;> decide

/-! ### `BUF`, the events, and `slotUTC` -/

/-- Settles O57: the block's steps one by one. -/
theorem bufChangesOnlyAtItsEnds : Obligations.BufChangesOnlyAtItsEnds := by
  intro s u hstep
  obtain ⟨t, ht, hut⟩ := step_cases hstep
  have hbuf : u.buf = t.buf := by rcases hut with ⟨-, rfl⟩ | ⟨m, rest, -, -, rfl⟩ <;> rfl
  rw [hbuf]
  rcases blockStep_cases ht with ⟨hr, rfl⟩ | ⟨-, -, -, rfl⟩ | ⟨-, -, -, -, rfl⟩ | ⟨-, hp, c, rest, hc, rfl⟩ |
    ⟨-, hp, -, h⟩ | ⟨-, -, e, rest, -, -, rfl⟩ | ⟨-, rfl, -⟩
  · exact .inr (.inl ⟨hr, rfl⟩)
  · exact .inl rfl
  · exact .inl rfl
  · exact .inr (.inr (.inl ⟨hp, c, rest, hc, rfl⟩))
  · rcases scan_cases h with ⟨-, rfl⟩ | ⟨n, why, hdec, rfl⟩ | ⟨i, n, hdec, hexec⟩
    · exact .inl rfl
    · exact .inr (.inr (.inr (.inl ⟨hp, n, why, decode_eq_discard hdec, rfl⟩)))
    · obtain ⟨cls, id, P, hext, -⟩ := decode_eq_instr hdec
      obtain ⟨-, -, rfl, -⟩ := extract_frame_parts hext
      obtain ⟨htbuf, -⟩ := exec_keeps hexec
      exact .inr (.inr (.inr (.inr ⟨hp, cls, id, P, hext, htbuf⟩)))
  · exact .inl rfl
  · exact .inl rfl

/-- Settles O53: a quiet step takes the head event from the queue's head to the log's end, or queues at the end; and the
log grows by an emission or an entry to `FATAL`. -/
theorem noEventLostOrReordered : Obligations.NoEventLostOrReordered := by
  intro s u hstep
  obtain ⟨t, ht, hut⟩ := step_cases hstep
  obtain ⟨hdec, hlog⟩ : u.decided = t.decided ∧ u.log = t.log := by
    rcases hut with ⟨-, rfl⟩ | ⟨m, rest, -, -, rfl⟩ <;> exact ⟨rfl, rfl⟩
  rw [hdec, hlog]
  rcases blockStep_cases ht with ⟨hr, rfl⟩ | ⟨-, -, hk, rfl⟩ | ⟨-, -, -, hs, rfl⟩ | ⟨-, -, c, rest, -, rfl⟩ |
    ⟨-, -, -, h⟩ | ⟨-, -, e, rest, ho, -, rfl⟩ | ⟨-, rfl, -⟩
  · exact ⟨fun hq => absurd hq.1 (by simp [hr]), [], by simp, by simp⟩
  · exact ⟨fun hq => absurd hq.2.2 (by simp [hk]), [.fatal .sink], rfl, by simp⟩
  · exact ⟨fun hq => absurd hq.2.1 (by simp [hs]), [.fatal .source], rfl, by simp⟩
  · exact ⟨fun _ => List.prefix_rfl, [], by simp, by simp⟩
  · rcases scan_cases h with ⟨-, rfl⟩ | ⟨n, why, -, rfl⟩ | ⟨i, n, -, hexec⟩
    · exact ⟨fun _ => List.prefix_rfl, [], by simp, by simp⟩
    · exact ⟨fun _ => List.prefix_rfl, [], by simp, by simp⟩
    · obtain ⟨-, -, -, -, -, -, -, htlog⟩ := exec_keeps hexec
      obtain ⟨⟨more, hq, -⟩, -⟩ := exec_grows hexec
      exact ⟨fun _ => ⟨more.map OutEvent.toObs, by simp [State.decided, htlog, hq]⟩, [], by simp [htlog], by simp⟩
  · exact ⟨fun _ => by simp [State.decided, ho], [e.toObs], rfl, by simp⟩
  · exact ⟨fun _ => List.prefix_rfl, [], by simp, by simp⟩

theorem decodeAndForward_setUtc (T : RecType) (P : Bytes) (s : State) (u : Option TimeutcRecord) :
    ∃ v, decodeAndForward T P { s with slotUtc := u } = { decodeAndForward T P s with slotUtc := v } := by
  rcases decRecord_cases T P with ⟨hl, -⟩ | ⟨hl, r, hr, -⟩
  · exact ⟨u, by rw [decodeAndForward_of_short hl, decodeAndForward_of_short hl]⟩
  · rw [decodeAndForward_of_record hr, decodeAndForward_of_record hr]
    cases r with
    | timeutc r => exact ⟨some r, rfl⟩
    | pvt r => exact ⟨u, rfl⟩
    | posecef r => exact ⟨u, rfl⟩
    | velecef r => exact ⟨u, rfl⟩

theorem synthesize_setUtc (s : State) (u : Option TimeutcRecord) :
    ({ s with slotUtc := u } : State).synthesize = { s.synthesize with slotUtc := u } := by
  rcases synth_cases s with ⟨-, h⟩ | ⟨V, E, -, -, h⟩
  · rw [State.synthesize, State.synthesize, h, show ({ s with slotUtc := u } : State).synth = none from h]; rfl
  · rw [State.synthesize, State.synthesize, h, show ({ s with slotUtc := u } : State).synth = some _ from h]; rfl

theorem exec_setUtc {i : Instr} {s t : State} (h : exec i s = .next t) (u : Option TimeutcRecord) :
    ∃ v, exec i { s with slotUtc := u } = .next { t with slotUtc := v } := by
  cases i with
  | pvt P => cases h; obtain ⟨v, hv⟩ := decodeAndForward_setUtc .pvt P s u; exact ⟨v, congrArg _ hv⟩
  | posecef P => cases h; obtain ⟨v, hv⟩ := decodeAndForward_setUtc .posecef P s u; exact ⟨v, congrArg _ hv⟩
  | timeutc P => cases h; obtain ⟨v, hv⟩ := decodeAndForward_setUtc .timeutc P s u; exact ⟨v, congrArg _ hv⟩
  | velecef P =>
    obtain ⟨v, hv⟩ := decodeAndForward_setUtc .velecef P s u
    simp only [exec, execVelecef] at h ⊢
    split at h
    · cases h; exact ⟨v, by rw [hv]⟩
    · cases h; exact ⟨v, by rw [hv, synthesize_setUtc]⟩
  | navOther id P => cases h; exact ⟨u, rfl⟩
  | foreign cls id P =>
    simp only [exec, execForeign] at h ⊢
    split at h
    · cases h; exact ⟨u, by simp only [*, if_true]; rfl⟩
    · cases h; exact ⟨u, by simp only [*]; rfl⟩
  | sol => cases h; exact ⟨u, congrArg _ (synthesize_setUtc s u)⟩

theorem blockStep_setUtc {s t : State} (h : s.blockStep = .next t) (u : Option TimeutcRecord) :
    ∃ v, ({ s with slotUtc := u } : State).blockStep = .next { t with slotUtc := v } := by
  unfold State.blockStep at h ⊢
  rw [show ({ s with slotUtc := u } : State).enabledStep = s.enabledStep from rfl]
  cases henabled : s.enabledStep with
  | reset => rw [henabled] at h; cases h; exact ⟨none, rfl⟩
  | fault cause => rw [henabled] at h; cases h; exact ⟨u, rfl⟩
  | ingest => rw [henabled] at h; cases h; exact ⟨u, by simp only [State.ingest]; split <;> rfl⟩
  | emit => rw [henabled] at h; cases h; exact ⟨u, by simp only [State.emit]; split <;> rfl⟩
  | wait => rw [henabled] at h; cases h; exact ⟨u, rfl⟩
  | scan =>
    rw [henabled] at h
    simp only at h ⊢
    rcases scan_cases h with ⟨hdec, rfl⟩ | ⟨n, why, hdec, rfl⟩ | ⟨i, n, hdec, hexec⟩
    · exact ⟨u, by rw [State.scan, hdec]; rfl⟩
    · exact ⟨u, by rw [State.scan, hdec]; rfl⟩
    · obtain ⟨v, hv⟩ := exec_setUtc hexec u
      exact ⟨v, by rw [State.scan, hdec]; exact hv⟩

/-- Settles O56: neither the block's step nor the host's move reads the slot. -/
theorem utcSlotNeverRead : Obligations.UtcSlotNeverRead := by
  intro s t' u hstep
  obtain ⟨t, ht, hut⟩ := step_cases hstep
  obtain ⟨v, hv⟩ := blockStep_setUtc ht u
  refine ⟨v, ?_⟩
  rw [step_eq_of_blockStep hv]
  rcases hut with ⟨hh, rfl⟩ | ⟨m, rest, hh, hl, rfl⟩
  · simp [State.hostMove, hh]
  · simp [State.hostMove, hh, hl]

end Sys2Proof.Machine
end

section
/-! PROOFS. The invariant: it holds at reset and every step keeps it (10_state.md R24, R27, R28, 20_memory.md R63). -/

namespace Sys2Proof.Machine

/-! ### The events a dispatch queues are well made -/

theorem recordEvents_wellMade (bd : Build) (i : Instr) : ∀ e ∈ recordEvents i, e.WellMade bd := by
  have hrec (T : RecType) (P : Bytes) :
      ∀ e ∈ if minLen T ≤ P.length then [OutEvent.record T (P.take (minLen T))] else [], e.WellMade bd := by
    intro e he
    split at he
    · rw [List.mem_singleton.1 he, OutEvent.WellMade, List.length_take]
      omega
    · cases he
  cases i with
  | pvt P => exact hrec .pvt P
  | posecef P => exact hrec .posecef P
  | velecef P => exact hrec .velecef P
  | timeutc P => exact hrec .timeutc P
  | navOther | foreign | sol => exact fun e he => absurd he (by simp [recordEvents])

/-- Run on a payload that a length field can declare, an instruction queues whole records and whole frames. -/
theorem exec_queues_wellMade {i : Instr} {s t : State} (h : exec i s = .next t)
    (hfit : ∀ cls id P, i.fields = some (cls, id, P) → P.length ≤ 65535) :
    ∀ e ∈ t.outq, e ∈ s.outq ∨ e.WellMade s.build := by
  obtain ⟨fwd, sols, hq, hfwd, hsols⟩ := exec_events h
  intro e he
  simp only [hq, List.mem_append] at he
  rcases he with ((he | he) | he) | he
  · exact .inl he
  · exact .inr (recordEvents_wellMade s.build i e he)
  · rcases hfwd with ⟨rfl, -⟩ | ⟨cls, id, P, hf, rfl⟩
    · cases he
    · rw [List.mem_singleton.1 he]; exact .inr ⟨cls, id, P, hfit cls id P hf, rfl⟩
  · rcases hsols with rfl | ⟨S, hS, rfl, -⟩
    · cases he
    · rw [List.mem_singleton.1 he]; exact .inr ⟨0x01, 0x06, S, by omega, rfl⟩

/-! ### The invariant, operation by operation -/

/-- What may be held in `IDLE` is at most 65542 bytes (R24, D7). -/
theorem heldPart_length {bd : Build} {B : Bytes} (h : HeldPart bd B) : B.length ≤ 65542 := by
  have := memRead_lt B 4 2
  rcases h with rfl | ⟨-, h6 | h8⟩
  · simp
  · omega
  · omega

/-- A chunk taken in `IDLE` fits (R63). -/
theorem ingest_fits {s : State} (hheld : HeldPart s.build s.buf) {c : Bytes} {rest : List Bytes}
    (hc : takeChunk s.build.readMax s.source = some (c, rest)) : (s.buf ++ c).length ≤ s.build.bufCap := by
  have hbuf := heldPart_length hheld
  obtain ⟨-, hmax⟩ := takeChunk_bounds (one_le_readMax s.build) hc
  rw [List.length_append, Build.bufCap]
  omega

theorem resetBlock_inv (s : State) : s.resetBlock.Inv where
  idleQueueEmpty _ := rfl
  idleHolds _ := .inl rfl
  fatalQueueEmpty _ := rfl
  causeIffFatal := by simp
  queueAtMostThree := by simp
  queueWellMade := by simp
  bufFits := by simp

theorem raiseFatal_inv {s : State} {cause : FatalCause} (hc : cause ≠ .none) (h : s.Inv) :
    (s.raiseFatal cause).Inv where
  idleQueueEmpty _ := rfl
  idleHolds hp := by cases hp
  fatalQueueEmpty _ := rfl
  causeIffFatal := by simpa using hc
  queueAtMostThree := by simp
  queueWellMade := by simp
  bufFits := h.bufFits

/-- In `SCAN` the invariant speaks of the cause, the queue and the size of `BUF` alone. -/
theorem inv_of_scan {t : State} (hp : t.phase = .scan) (hcause : t.fatalCause = .none) (hlen : t.outq.length ≤ 3)
    (hmade : ∀ e ∈ t.outq, e.WellMade t.build) (hfits : t.buf.length ≤ t.build.bufCap) : t.Inv where
  idleQueueEmpty h := by rw [hp] at h; cases h
  idleHolds h := by rw [hp] at h; cases h
  fatalQueueEmpty h := by rw [hp] at h; cases h
  causeIffFatal := by simp [hp, hcause]
  queueAtMostThree := hlen
  queueWellMade := hmade
  bufFits := hfits

theorem fatalCause_eq_none {s : State} (h : s.Inv) (hp : s.phase ≠ .fatal) : s.fatalCause = .none :=
  h.causeIffFatal.2 hp

/-- A scan that waits holds what `IDLE` may hold; one that drops bytes or dispatches stays in `SCAN`. -/
theorem scan_keeps_inv {s t : State} (h : s.Inv) (hp : s.phase = .scan) (ho : s.outq = []) (hscan : s.scan = .next t) :
    t.Inv := by
  have hcause := fatalCause_eq_none h (by simp [hp])
  have hdrop (n : Nat) : (s.buf.drop n).length ≤ s.build.bufCap := by
    have := h.bufFits; rw [List.length_drop]; omega
  rcases scan_cases hscan with ⟨hdec, rfl⟩ | ⟨n, why, -, rfl⟩ | ⟨i, n, hdec, hexec⟩
  · exact {
      idleQueueEmpty := fun _ => ho
      idleHolds := fun _ => extract_eq_needMoreBytes (decode_eq_needMoreBytes hdec)
      fatalQueueEmpty := fun hp => by cases hp
      causeIffFatal := by simpa using hcause
      queueAtMostThree := h.queueAtMostThree
      queueWellMade := h.queueWellMade
      bufFits := h.bufFits }
  · exact inv_of_scan hp hcause h.queueAtMostThree h.queueWellMade (hdrop n)
  · obtain ⟨cls, id, P, hext, rfl⟩ := decode_eq_instr hdec
    obtain ⟨hbuf, hphase, hfcause, hbuild, -⟩ := exec_keeps hexec
    obtain ⟨⟨more, hq, hmore⟩, -⟩ := exec_grows hexec
    have hfit : ∀ c d Q, (selectInstr cls id P).fields = some (c, d, Q) → Q.length ≤ 65535 := by
      intro c d Q hf
      rw [(keySelectsFirstTableRow cls id P).2] at hf
      cases hf
      exact (extractedFrameReencodes _ _ _ _ _ _ hext).2.2.2
    refine inv_of_scan (hphase.trans hp) (hfcause.trans hcause) ?_ ?_ ?_
    · rw [hq, State.setBuf_outq, ho]; exact hmore
    · intro e he
      have := exec_queues_wellMade hexec hfit e he
      rw [State.setBuf_outq, ho] at this
      rw [hbuild]
      exact this.resolve_left (by simp)
    · rw [hbuf, hbuild]; exact hdrop n

theorem blockStep_keeps_inv {s t : State} (h : s.Inv) (ht : s.blockStep = .next t) : t.Inv := by
  have hcause := fatalCause_eq_none h
  rcases blockStep_cases ht with ⟨-, rfl⟩ | ⟨-, -, -, rfl⟩ | ⟨-, -, -, -, rfl⟩ | ⟨-, hp, c, rest, hc, rfl⟩ |
    ⟨-, hp, ho, hscan⟩ | ⟨-, hp, e, rest, ho, -, rfl⟩ | ⟨-, rfl, -⟩
  · exact resetBlock_inv s
  · exact raiseFatal_inv (by simp) h
  · exact raiseFatal_inv (by simp) h
  · exact inv_of_scan rfl (hcause (by simp [hp])) h.queueAtMostThree h.queueWellMade
      (ingest_fits (h.idleHolds hp) hc)
  · exact scan_keeps_inv h hp ho hscan
  · have hlen := h.queueAtMostThree
    have hmade := h.queueWellMade
    rw [ho] at hlen hmade
    exact inv_of_scan hp (hcause (by simp [hp])) (Nat.le_of_succ_le hlen)
      (fun e' he' => hmade e' (List.mem_cons_of_mem e he')) h.bufFits
  · exact h

/-! ### The obligations -/

/-- Settles O47: the reset state is a block just reset. -/
theorem resetMeetsInv : Obligations.ResetMeetsInv := resetBlock_inv State.reset

/-- Settles O48: the block's step keeps the invariant, which speaks of nothing that the host's move writes. -/
theorem stepKeepsInv : Obligations.StepKeepsInv := by
  intro s u h hstep
  obtain ⟨t, ht, hu⟩ := step_cases hstep
  have hinv := blockStep_keeps_inv h ht
  rcases hu with ⟨-, rfl⟩ | ⟨m, rest, -, -, rfl⟩
  · exact hinv
  · exact ⟨hinv.idleQueueEmpty, hinv.idleHolds, hinv.fatalQueueEmpty, hinv.causeIffFatal, hinv.queueAtMostThree,
      hinv.queueWellMade, hinv.bufFits⟩

/-- Settles O49: by what may be held in `IDLE`. -/
theorem bufNeverOverflows : Obligations.BufNeverOverflows := by
  refine fun s h => ⟨h.bufFits, fun hp => ⟨heldPart_length (h.idleHolds hp), fun c rest hc => ?_⟩⟩
  obtain ⟨hpos, hmax⟩ := takeChunk_bounds (one_le_readMax s.build) hc
  exact ⟨hpos, hmax, ingest_fits (h.idleHolds hp) hc⟩

end Sys2Proof.Machine
end

section
/-! PROOFS. What repeated extraction makes of a buffer, as a function of the buffer, and of a buffer in two pieces that no
marker joins (41_frame_codec.md R112, R116, 70_reset_and_hazards.md R246). -/

namespace Sys2Proof

open Sys2Proof.Machine

/-! ### The scan of a buffer, as a function -/

/-- What repeated `EXTRACT` makes of a buffer: the instructions of the frames taken, in order, and the bytes on which it
waits. -/
def scanned (bd : Build) (B : Bytes) : List Instr × Bytes :=
  match _h : extract bd B with
  | .needMoreBytes => ([], B)
  | .discard n _ => scanned bd (B.drop n)
  | .frame cls id P n => (selectInstr cls id P :: (scanned bd (B.drop n)).1, (scanned bd (B.drop n)).2)
termination_by B.length
decreasing_by
  · have := extract_discard_bounds _h
    rw [List.length_drop]; omega
  all_goals
    obtain ⟨-, hn, hnP, -⟩ := extract_frame_parts _h
    rw [List.length_drop]; omega

theorem scanned_of_needMoreBytes {bd : Build} {B : Bytes} (h : extract bd B = .needMoreBytes) :
    scanned bd B = ([], B) := by
  rw [scanned]; split <;> simp_all

theorem scanned_of_discard {bd : Build} {B : Bytes} {n : Nat} {why : Condition} (h : extract bd B = .discard n why) :
    scanned bd B = scanned bd (B.drop n) := by
  rw [scanned]; split <;> simp_all

theorem scanned_of_frame {bd : Build} {B : Bytes} {cls id : Byte} {P : Bytes} {n : Nat}
    (h : extract bd B = .frame cls id P n) :
    scanned bd B = (selectInstr cls id P :: (scanned bd (B.drop n)).1, (scanned bd (B.drop n)).2) := by
  rw [scanned]; split <;> simp_all

@[simp] theorem scanned_nil (bd : Build) : scanned bd [] = ([], []) := scanned_of_needMoreBytes rfl

/-- Bytes before the first marker leave no trace in what a scan makes of the rest. -/
theorem scanned_of_marker {bd : Build} {B : Bytes} {k : Nat} (h : findMarker bd B = some k) :
    scanned bd B = scanned bd (B.drop k) := by
  cases k with
  | zero => rfl
  | succ k => exact scanned_of_discard (extract_of_findMarker_succ h)

theorem scanned_of_no_marker {bd : Build} {B : Bytes} (h : findMarker bd B = none) : scanned bd B = ([], []) := by
  cases B with
  | nil => exact scanned_nil bd
  | cons x B => rw [scanned_of_discard (extract_of_findMarker_none (by simp) h), List.drop_length, scanned_nil]

/-! ### The scan of a buffer in two pieces -/

/-- No marker stands across the end of `A` and the beginning of `B` (R246). -/
def NoMarkerAcross (bd : Build) (A B : Bytes) : Prop := ¬ (A.getLast? = some bd.sync0 ∧ B.head? = some bd.sync1)

theorem NoMarkerAcross.drop {bd : Build} {A T : Bytes} (h : NoMarkerAcross bd A T) (n : Nat) :
    NoMarkerAcross bd (A.drop n) T := by
  rintro ⟨hlast, hhead⟩
  rw [List.getLast?_drop] at hlast
  split at hlast
  · cases hlast
  · exact h ⟨hlast, hhead⟩

/-- A buffer that does not start with a marker starts with none when bytes come behind it that make none across. -/
theorem not_startsWithMarker_append {bd : Build} {x : Byte} {A T : Bytes} (h : ¬ StartsWithMarker bd (x :: A))
    (hno : NoMarkerAcross bd (x :: A) T) : ¬ StartsWithMarker bd (x :: (A ++ T)) := by
  match A, T with
  | [], [] => simpa using h
  | [], y :: T => simpa [startsWithMarker_cons_cons, NoMarkerAcross] using hno
  | y :: A, T => rwa [List.cons_append, startsWithMarker_cons_cons, ← startsWithMarker_cons_cons bd x y A]

theorem findMarker_append_of_some {bd : Build} {A : Bytes} {k : Nat} (h : findMarker bd A = some k) (T : Bytes) :
    findMarker bd (A ++ T) = some k := by
  obtain ⟨hk, hlow⟩ := ((markerIsLeastIndex bd A).1 k).1 h
  have hlt := findMarker_lt h
  refine ((markerIsLeastIndex bd _).1 k).2 ⟨?_, fun j hj => ?_⟩
  · rw [List.drop_append_of_le_length (by omega)]; exact startsWithMarker_append hk T
  · have := hlow j hj
    rwa [StartsWithMarker, List.drop_append_of_le_length (by omega),
      List.take_append_of_le_length (by rw [List.length_drop]; omega)]

theorem findMarker_append_of_none {bd : Build} {A T : Bytes} (h : findMarker bd A = none)
    (hno : NoMarkerAcross bd A T) : findMarker bd (A ++ T) = (findMarker bd T).map (· + A.length) := by
  induction A with
  | nil => simp
  | cons x A ih =>
    have hs : ¬ StartsWithMarker bd (x :: A) := fun hs => by
      rw [(findMarker_eq_zero_iff bd _).2 hs] at h; cases h
    rw [findMarker_cons_of_not hs, Option.map_eq_none_iff] at h
    rw [List.cons_append, findMarker_cons_of_not (not_startsWithMarker_append hs hno), ih h (hno.drop 1)]
    simp

/-- The scan of `A ++ T` is the scan of `A`, then of what it leaves with `T` behind (R246). -/
theorem scanned_append {bd : Build} {A T : Bytes} (hno : NoMarkerAcross bd A T) :
    scanned bd (A ++ T) =
      ((scanned bd A).1 ++ (scanned bd ((scanned bd A).2 ++ T)).1, (scanned bd ((scanned bd A).2 ++ T)).2) := by
  revert hno
  refine extract_induction (bd := bd) (motive := fun A => NoMarkerAcross bd A T → scanned bd (A ++ T) =
      ((scanned bd A).1 ++ (scanned bd ((scanned bd A).2 ++ T)).1, (scanned bd ((scanned bd A).2 ++ T)).2)) ?_ ?_ ?_ A
  · intro A h _
    rw [scanned_of_needMoreBytes h]; rfl
  · intro A n why h ih hno
    have hn := extract_discard_bounds h
    rw [scanned_of_discard h, ← ih (hno.drop n), ← List.drop_append_of_le_length hn.2]
    rcases extract_cases bd A with ⟨-, he⟩ | ⟨-, hm, he⟩ | ⟨k, hm, he⟩ | ⟨hs, -, hl, ⟨-, he⟩ | ⟨-, he⟩⟩ <;>
      rw [h] at he <;> cases he
    · have hm' := findMarker_append_of_none hm hno
      cases hT : findMarker bd T with
      | none =>
        rw [hT] at hm'
        rw [scanned_of_no_marker hm', List.drop_left, scanned_of_no_marker hT]
      | some k =>
        rw [hT] at hm'
        have hdrop : (A ++ T).drop (k + A.length) = T.drop k := by
          rw [Nat.add_comm, ← List.drop_drop, List.drop_left]
        rw [scanned_of_marker hm', List.drop_left, scanned_of_marker hT, hdrop]
    · exact scanned_of_marker (findMarker_append_of_some hm T)
    · exact scanned_of_discard ((extract_append_of_whole hs hl T).trans h)
  · intro A cls id P n h ih hno
    obtain ⟨hs, hl⟩ := whole_of_extract_frame h
    obtain ⟨-, hn, -⟩ := extract_frame_parts h
    rw [scanned_of_frame h, scanned_of_frame ((extract_append_of_whole hs hl T).trans h),
      List.drop_append_of_le_length hn, ih (hno.drop n)]
    rfl

end Sys2Proof
end

section
/-! PROOFS. Runs of a block that the host lets drain: the events of a dispatch go out, and a scan comes back to `IDLE`
having done what the scan of its buffer says (45_stream_controller.md R183 to R194). -/

namespace Sys2Proof.Machine

/-! ### Runs -/

theorem run_succ_of_step {s t : State} (h : step s = .next t) (k : Nat) : run (k + 1) s = run k t := by
  rw [run, h]

theorem run_add {s t : State} {a : Nat} (h : run a s = .next t) (b : Nat) : run (a + b) s = run b t := by
  induction a generalizing s with
  | zero => cases h; rw [Nat.zero_add]
  | succ a ih =>
    rw [Nat.succ_add, run]
    rw [run] at h
    split at h
    · exact ih h
    · cases h
    · cases h

/-! ### The queue drains -/

/-- `s` with every pending event emitted. -/
def State.flushed (s : State) : State := { s with outq := [], log := s.decided }

theorem flushed_of_nil {s : State} (h : s.outq = []) : s.flushed = s := by
  rw [State.flushed, State.decided, h, List.map_nil, List.append_nil, ← h]

/-- With both ports ready one step emits one event. -/
theorem run_emits {s : State} (hd : s.Draining) (hp : s.phase = .scan) : run s.outq.length s = .next s.flushed := by
  obtain ⟨hq, hout, hrec, hh⟩ := hd
  cases ho : s.outq with
  | nil => rw [flushed_of_nil ho]; rfl
  | cons e rest =>
    have hready : s.pins.readyFor e = true := by
      cases e with
      | frame F => exact hout
      | record T D => exact hrec
    rw [List.length_cons, run_succ_of_step ((step_of_event hq hp hh ho).1 hready)]
    have ih := run_emits (s := { s with outq := rest, log := s.log ++ [e.toObs] }) ⟨hq, hout, hrec, hh⟩ hp
    refine ih.trans ?_
    simp [State.flushed, State.decided, ho]
termination_by s.outq.length
decreasing_by simp [ho]

/-- A scan that extracts a frame dispatches it, and then its events go out. -/
theorem run_frame {s t : State} {cls id : Byte} {P : Bytes} {n : Nat} (hd : s.Draining) (hp : s.phase = .scan)
    (ho : s.outq = []) (h : extract s.build s.buf = .frame cls id P n)
    (ht : exec (selectInstr cls id P) (s.setBuf (s.buf.drop n)) = .next t) :
    run (1 + t.outq.length) s = .next t.flushed ∧ t.outq.length ≤ 3 := by
  obtain ⟨hq, hout, hrec, hh⟩ := hd
  obtain ⟨-, hphase, -, -, hpins, -, hhost, -⟩ := exec_keeps ht
  obtain ⟨⟨more, hmore, hlen⟩, -⟩ := exec_grows ht
  have hstep : step s = .next t :=
    ((stepRunsDecodedInstruction s _ n hq hp ho (decode_of_extract_frame h)).2 hh).trans ht
  have hdrain : t.Draining := by rw [State.Draining, hpins, hhost]; exact ⟨hq, hout, hrec, hh⟩
  refine ⟨?_, by rw [hmore, State.setBuf_outq, ho]; exact hlen⟩
  rw [Nat.add_comm, run_succ_of_step hstep, run_emits hdrain (hphase.trans hp)]

/-! ### A message of class 0x01 -/

theorem recordEvents_class01 (id : Byte) (P : Bytes) :
    recordEvents (selectInstr 0x01 id P) = [] ∨
    ∃ T, recordEvents (selectInstr 0x01 id P) = [.record T (P.take (minLen T))] ∧ id = recId T ∧
      minLen T ≤ P.length := by
  by_cases hid : ∃ T, id = recId T
  · obtain ⟨T, rfl⟩ := hid
    rw [selectInstr_recId, recordEvents_decodedInstr]
    split
    · exact .inr ⟨T, rfl, rfl, ‹_›⟩
    · exact .inl rfl
  · rw [not_exists] at hid
    rcases selectInstr_of_no_decoder (.inr hid) P with hs | hs
    · exact .inl (by rw [hs]; rfl)
    · exact .inl (by rw [hs]; rfl)

/-- A message of class 0x01 queues its record if it has one, its own frame, and, VELECEF alone, a solution. -/
theorem exec_class01_events {id : Byte} {P : Bytes} {s t : State} (h : exec (selectInstr 0x01 id P) s = .next t) :
    ∃ sols, t.outq =
        s.outq ++ recordEvents (selectInstr 0x01 id P) ++ [.frame (encodeFrame s.build 0x01 id P)] ++ sols ∧
      (sols = [] ∨ ∃ S, S.length = 52 ∧ sols = [.frame (encodeFrame s.build 0x01 0x06 S)] ∧ id = 0x11) := by
  obtain ⟨-, -, -, -, -, hforeign, hsol⟩ := instructionChosenByKey 0x01 id P
  have hf := (keySelectsFirstTableRow 0x01 id P).2
  obtain ⟨fwd, sols, hq, hfwd, hsols⟩ := exec_events h
  refine ⟨sols, ?_, ?_⟩
  · rcases hfwd with ⟨-, hi | ⟨c, d, Q, hi⟩⟩ | ⟨c, d, Q, hi, rfl⟩
    · exact absurd hi hsol
    · rw [hi] at hf
      cases hf
      exact absurd rfl (hforeign.1 hi)
    · rw [hf] at hi
      cases hi
      exact hq
  · rcases hsols with hnil | ⟨S, hS, hS', hi | ⟨Q, hi⟩⟩
    · exact .inl hnil
    · exact absurd hi hsol
    · rw [hi] at hf
      cases hf
      exact .inr ⟨S, hS, hS', rfl⟩

/-- Settles O52: the dispatch queues exactly these events, the frame being the bytes consumed; with the ports ready they
go out one a step. -/
theorem class01ForwardedOnceUnchanged : Obligations.Class01ForwardedOnceUnchanged := by
  intro s id P n hq hp ho h
  obtain ⟨hframe, -⟩ := extractedFrameReencodes _ _ _ _ _ _ h
  obtain ⟨t, ht⟩ := exec_next (selectInstr 0x01 id P) (s.setBuf (s.buf.drop n))
  obtain ⟨hbuf, hphase, -, -, -, -, -, hlog⟩ := exec_keeps ht
  obtain ⟨sols, hout, hsols⟩ := exec_class01_events ht
  rw [State.setBuf_outq, ho, State.setBuf_build, hframe, List.nil_append] at hout
  have hdecided : t.decided = s.log ++ (recordEvents (selectInstr 0x01 id P)).map OutEvent.toObs ++
      [.frame (s.buf.take n)] ++ sols.map OutEvent.toObs := by
    rw [State.decided, hlog, hout]; simp [OutEvent.toObs]
  refine ⟨(recordEvents (selectInstr 0x01 id P)).map OutEvent.toObs, sols.map OutEvent.toObs, ?_, ?_, fun u hu => ?_,
    fun hd => ?_⟩
  · rcases recordEvents_class01 id P with hnil | ⟨T, hT, hid, hl⟩
    · exact .inl (by rw [hnil]; rfl)
    · exact .inr ⟨T, by rw [hT]; rfl, hid, hl⟩
  · rcases hsols with rfl | ⟨S, hS, rfl, hid⟩
    · exact .inl rfl
    · exact .inr ⟨S, hS, rfl, hid⟩
  · obtain ⟨t', ht', hu'⟩ := step_cases hu
    rw [blockStep_of_scan hq hp ho, scan_of_instr (decode_of_extract_frame h), ht] at ht'
    cases ht'
    obtain ⟨hulog, hudec⟩ : u.log = t.log ∧ u.decided = t.decided := by
      rcases hu' with ⟨-, rfl⟩ | ⟨m, rest, -, -, rfl⟩ <;> exact ⟨rfl, rfl⟩
    have hs : s.decided = s.log := by simp [State.decided, ho]
    exact ⟨hulog.trans hlog, by rw [hudec, hdecided, hs]⟩
  · obtain ⟨hrun, hlen⟩ := run_frame hd hp ho h ht
    exact ⟨_, _, by omega, hrun, hphase.trans hp, rfl, hbuf, hdecided⟩

/-! ### What a scan does apart from `BUF`, the source and the trace -/

/-- `s` without what a run over other chunks may leave otherwise: `BUF`, the phase, what is still offered, and the
trace. -/
def State.core (s : State) : State := { s with buf := [], phase := .idle, source := [], trace := [] }

/-- `s` after instruction `i` was run and its events went out. -/
def State.delivered (s : State) (i : Instr) : State :=
  match exec i s with
  | .next t => t.flushed
  | .fault _ => s
  | .refused _ => s

/-- `s` after the instructions of a list were run in order, each with its events emitted. -/
def State.deliveredAll (s : State) (is : List Instr) : State := is.foldl State.delivered s

theorem delivered_eq {i : Instr} {s t : State} (h : exec i s = .next t) : s.delivered i = t.flushed := by
  rw [State.delivered, h]

theorem decodeAndForward_core (T : RecType) (P : Bytes) (s : State) :
    (decodeAndForward T P s.core).core = (decodeAndForward T P s).core := by
  rcases decRecord_cases T P with ⟨hl, -⟩ | ⟨hl, r, hr, -⟩
  · rw [decodeAndForward_of_short hl, decodeAndForward_of_short hl]; rfl
  · rw [decodeAndForward_of_record hr, decodeAndForward_of_record hr]
    cases r <;> rfl

theorem synthesize_core (s : State) : s.core.synthesize.core = s.synthesize.core := by
  rcases synth_cases s with ⟨-, h⟩ | ⟨V, E, -, -, h⟩
  · rw [State.synthesize, State.synthesize, h, show s.core.synth = none from h]; rfl
  · rw [State.synthesize, State.synthesize, h, show s.core.synth = some _ from h]; rfl

/-- No instruction reads `BUF`, the phase, the source or the trace. -/
theorem exec_core {i : Instr} {s t : State} (h : exec i s = .next t) :
    ∃ t', exec i s.core = .next t' ∧ t'.core = t.core := by
  cases i with
  | pvt P => cases h; exact ⟨_, rfl, decodeAndForward_core .pvt P s⟩
  | posecef P => cases h; exact ⟨_, rfl, decodeAndForward_core .posecef P s⟩
  | timeutc P => cases h; exact ⟨_, rfl, decodeAndForward_core .timeutc P s⟩
  | velecef P =>
    have hcore := decodeAndForward_core .velecef P s
    simp only [exec, execVelecef] at h ⊢
    split at h
    · cases h; exact ⟨_, rfl, hcore⟩
    · cases h; exact ⟨_, rfl, by rw [← synthesize_core, hcore, synthesize_core]⟩
  | navOther id P => cases h; exact ⟨_, rfl, rfl⟩
  | foreign cls id P =>
    obtain ⟨hfwd, hdrop⟩ := foreignFollowsConfiguration cls id P s
    obtain ⟨hfwd', hdrop'⟩ := foreignFollowsConfiguration cls id P s.core
    cases hf : s.pins.cfgFwdForeign with
    | true => rw [hfwd hf] at h; cases h; exact ⟨_, hfwd' hf, rfl⟩
    | false => rw [hdrop hf] at h; cases h; exact ⟨_, hdrop' hf, rfl⟩
  | sol => cases h; exact ⟨_, rfl, synthesize_core s⟩

theorem delivered_core (s : State) (i : Instr) : (s.core.delivered i).core = (s.delivered i).core := by
  obtain ⟨t, ht⟩ := exec_next i s
  obtain ⟨t', ht', hcore⟩ := exec_core ht
  rw [delivered_eq ht, delivered_eq ht']
  have hflush (u : State) : u.flushed.core = u.core.flushed := rfl
  rw [hflush, hflush, hcore]

theorem deliveredAll_core_congr {s u : State} (h : s.core = u.core) (is : List Instr) :
    (s.deliveredAll is).core = (u.deliveredAll is).core := by
  induction is generalizing s u with
  | nil => exact h
  | cons i is ih => exact ih (by rw [← delivered_core s, ← delivered_core u, h])

/-! ### A scan comes back to `IDLE` -/

/-- `t` is where a scan from `s` ends: idle, nothing pending, the bytes `R` held, `is` run and their events out. -/
structure Settled (s : State) (is : List Instr) (R : Bytes) (t : State) : Prop where
  idle : t.phase = .idle
  queueEmpty : t.outq = []
  holds : t.buf = R
  sourceKept : t.source = s.source
  buildKept : t.build = s.build
  draining : t.Draining
  coreOf : t.core = (s.deliveredAll is).core

/-- With the ports ready a scan ends within `|BUF| + 1` steps as the scan of its buffer says (R116, R183): a discard is
one step, a frame, of eight bytes or more, at most four. -/
theorem scan_settles (bd : Build) (B : Bytes) : ∀ s : State, s.Draining → s.phase = .scan → s.outq = [] →
    s.build = bd → s.buf = B →
    ∃ k t, k ≤ B.length + 1 ∧ run k s = .next t ∧ Settled s (scanned bd B).1 (scanned bd B).2 t := by
  refine extract_induction (bd := bd) (motive := fun B => ∀ s : State, s.Draining → s.phase = .scan → s.outq = [] →
    s.build = bd → s.buf = B →
    ∃ k t, k ≤ B.length + 1 ∧ run k s = .next t ∧ Settled s (scanned bd B).1 (scanned bd B).2 t) ?_ ?_ ?_ B
  · rintro B h s hd hp ho rfl rfl
    have hstep := (scanWaitsOrDiscards s hd.1 hp ho hd.2.2.2).1 h
    refine ⟨1, _, by omega, by rw [run_succ_of_step hstep]; rfl, ?_⟩
    rw [scanned_of_needMoreBytes h]
    exact ⟨rfl, ho, rfl, rfl, rfl, hd, rfl⟩
  · rintro B n why h ih s hd hp ho rfl rfl
    have hn := extract_discard_bounds h
    have hstep := (scanWaitsOrDiscards s hd.1 hp ho hd.2.2.2).2 n why h
    obtain ⟨k, t, hk, hrun, hset⟩ :=
      ih { s with buf := s.buf.drop n, trace := s.trace ++ [why] } hd hp ho rfl rfl
    rw [List.length_drop] at hk
    refine ⟨k + 1, t, by omega, by rw [run_succ_of_step hstep]; exact hrun, ?_⟩
    rw [scanned_of_discard h]
    exact { hset with coreOf := hset.coreOf.trans (deliveredAll_core_congr (by rfl) _) }
  · rintro B cls id P n h ih s hd hp ho rfl rfl
    obtain ⟨-, hn, hnP, -⟩ := extract_frame_parts h
    obtain ⟨t, ht⟩ := exec_next (selectInstr cls id P) (s.setBuf (s.buf.drop n))
    obtain ⟨hbuf, hphase, -, hbuild, hpins, hsource, hhost, -⟩ := exec_keeps ht
    obtain ⟨hrun, hlen⟩ := run_frame hd hp ho h ht
    have hdrain : t.flushed.Draining := by
      rw [State.Draining, show t.flushed.pins = s.pins from hpins, show t.flushed.host = s.host from hhost]; exact hd
    obtain ⟨k, u, hk, hrun', hset⟩ := ih t.flushed hdrain (hphase.trans hp) rfl hbuild hbuf
    rw [List.length_drop] at hk
    refine ⟨1 + t.outq.length + k, u, by omega, by rw [run_add hrun]; exact hrun', ?_⟩
    have hfirst : t.flushed.core = (s.delivered (selectInstr cls id P)).core := by
      rw [← delivered_eq ht, ← delivered_core (s.setBuf _), ← delivered_core s]; rfl
    rw [scanned_of_frame h]
    exact { hset with
      sourceKept := hset.sourceKept.trans hsource
      buildKept := hset.buildKept.trans hbuild
      coreOf := hset.coreOf.trans (deliveredAll_core_congr hfirst _) }

theorem scanned_waits (bd : Build) (B : Bytes) : HeldPart bd (scanned bd B).2 := by
  refine extract_induction (bd := bd) (motive := fun B => HeldPart bd (scanned bd B).2) ?_ ?_ ?_ B
  · exact fun B h => by rw [scanned_of_needMoreBytes h]; exact extract_eq_needMoreBytes h
  · exact fun B n why h ih => by rw [scanned_of_discard h]; exact ih
  · exact fun B cls id P n h ih => by rw [scanned_of_frame h]; exact ih

/-- Settles O54: the scan ends, holding what `EXTRACT` waits on. -/
theorem scanReturnsToIdle : Obligations.ScanReturnsToIdle := by
  intro s hd hp ho
  obtain ⟨k, t, hk, hrun, hset⟩ := scan_settles s.build s.buf s hd hp ho rfl rfl
  refine ⟨k, t, hk, hrun, hset.idle, hset.queueEmpty, ?_⟩
  rw [hset.buildKept, hset.holds]
  exact scanned_waits s.build s.buf

end Sys2Proof.Machine
end

section
/-! PROOFS. How the stream is cut into chunks does not matter where no marker is split (70_reset_and_hazards.md
R246). -/

namespace Sys2Proof.Machine

/-! ### Chunks without a split marker -/

theorem NoSplitMarker.tail {bd : Build} {c : Bytes} {rest : List Bytes} (h : NoSplitMarker bd (c :: rest)) :
    NoSplitMarker bd rest :=
  fun before a b after hrest => h (c :: before) a b after (by rw [hrest]; rfl)

theorem head?_flatten_cons {c : Bytes} (hc : c ≠ []) (rest : List Bytes) : (c :: rest).flatten.head? = c.head? := by
  rw [List.flatten_cons, List.head?_append_of_ne_nil _ hc]

/-- Behind a chunk the rest of the stream begins no marker that the chunk ends. -/
theorem noMarkerAcross_of_noSplitMarker {bd : Build} (A : Bytes) {c : Bytes} {rest : List Bytes} (hc : c ≠ [])
    (hrest : ∀ d ∈ rest, d ≠ []) (h : NoSplitMarker bd (c :: rest)) : NoMarkerAcross bd (A ++ c) rest.flatten := by
  rintro ⟨hlast, hhead⟩
  rw [List.getLast?_append_of_ne_nil _ hc] at hlast
  cases rest with
  | nil => simp at hhead
  | cons d rest =>
    rw [head?_flatten_cons (hrest d (by simp))] at hhead
    exact h [] c d rest rfl ⟨hlast, hhead⟩

theorem noMarkerAcross_of_flatten {bd : Build} {A c : Bytes} {rest : List Bytes} (hc : c ≠ [])
    (h : NoMarkerAcross bd A (c :: rest).flatten) : NoMarkerAcross bd A c := by
  rwa [NoMarkerAcross, head?_flatten_cons hc] at h

/-! ### A run over chunks -/

theorem takeChunk_cons {m : Nat} {c : Bytes} (hc : c ≠ []) (hm : c.length ≤ m) (rest : List Bytes) :
    takeChunk m (c :: rest) = some (c, rest) := by
  obtain ⟨b, c, rfl⟩ := List.exists_cons_of_ne_nil hc
  rw [takeChunk, if_pos hm]

theorem deliveredAll_append (s : State) (is js : List Instr) :
    s.deliveredAll (is ++ js) = (s.deliveredAll is).deliveredAll js := List.foldl_append

/-- One chunk: it is taken, and the scan of what was held with it behind comes back to `IDLE`. -/
theorem run_chunk {s : State} {c : Bytes} {rest : List Bytes} (hd : s.Draining) (hp : s.phase = .idle)
    (ho : s.outq = []) (hsrc : s.source = c :: rest) (hc : c ≠ []) (hm : c.length ≤ s.build.readMax) :
    ∃ k t, run k s = .next t ∧
      Settled { s with source := rest } (scanned s.build (s.buf ++ c)).1 (scanned s.build (s.buf ++ c)).2 t := by
  have hstep : step s = .next { s with buf := s.buf ++ c, source := rest, phase := .scan } :=
    step_eq_next (blockStep_of_chunk hd.1 hp (by rw [hsrc]; exact takeChunk_cons hc hm rest)) hd.2.2.2
  obtain ⟨k, t, -, hrun, hset⟩ := scan_settles s.build (s.buf ++ c)
    { s with buf := s.buf ++ c, source := rest, phase := .scan } hd rfl ho rfl rfl
  exact ⟨k + 1, t, by rw [run_succ_of_step hstep]; exact hrun,
    { hset with coreOf := hset.coreOf.trans (deliveredAll_core_congr (by rfl) _) }⟩

/-- Chunk after chunk: when the block has made of the bytes `A` received so far what their scan as one buffer makes of
them, it will have made so of all the bytes once the chunks are taken. -/
theorem run_chunks (bd : Build) (o : State) (chunks : List Bytes) : ∀ (A : Bytes) (s : State), s.Draining →
    s.phase = .idle → s.outq = [] → s.build = bd → s.source = chunks →
    s.buf = (scanned bd A).2 → s.core = (o.deliveredAll (scanned bd A).1).core →
    (∀ c ∈ chunks, c ≠ [] ∧ c.length ≤ bd.readMax) → NoSplitMarker bd chunks → NoMarkerAcross bd A chunks.flatten →
    ∃ n t, run n s = .next t ∧ t.phase = .idle ∧ t.source = [] ∧ t.buf = (scanned bd (A ++ chunks.flatten)).2 ∧
      t.core = (o.deliveredAll (scanned bd (A ++ chunks.flatten)).1).core := by
  induction chunks with
  | nil =>
    intro A s _ hp _ _ hsrc hbuf hcore _ _ _
    rw [List.flatten_nil, List.append_nil]
    exact ⟨0, s, rfl, hp, hsrc, hbuf, hcore⟩
  | cons c rest ih =>
    intro A s hd hp ho hbuild hsrc hbuf hcore hchunks hsplit hacross
    obtain ⟨hc, hm⟩ := hchunks c (by simp)
    have hrest : ∀ d ∈ rest, d ≠ [] ∧ d.length ≤ bd.readMax := fun d hmem => hchunks d (by simp [hmem])
    obtain ⟨k, t, hrun, hset⟩ := run_chunk hd hp ho hsrc hc (by rw [hbuild]; exact hm)
    rw [show scanned s.build (s.buf ++ c) = scanned bd ((scanned bd A).2 ++ c) by rw [hbuild, hbuf]] at hset
    have happend := scanned_append (noMarkerAcross_of_flatten hc hacross)
    have hcore' : t.core = (o.deliveredAll (scanned bd (A ++ c)).1).core := by
      rw [happend, deliveredAll_append]
      exact hset.coreOf.trans (deliveredAll_core_congr (by exact hcore) _)
    obtain ⟨n, u, hrun', hfinal⟩ := ih (A ++ c) t hset.draining hset.idle hset.queueEmpty (hset.buildKept.trans hbuild)
      hset.sourceKept (by rw [hset.holds, happend]) hcore' hrest hsplit.tail
      (noMarkerAcross_of_noSplitMarker A hc (fun d hmem => (hrest d hmem).1) hsplit)
    rw [List.append_assoc, ← List.flatten_cons] at hfinal
    exact ⟨k + n, u, by rw [run_add hrun]; exact hrun', hfinal⟩

/-- Settles O55: both runs make of the stream what its scan as one buffer makes of it. -/
theorem chunkingDoesNotMatter : Obligations.ChunkingDoesNotMatter := by
  intro s chunks hd hp ho hbuf hsrc hchunks hsplit
  obtain ⟨n, t, hrun, hidle, hsource, htbuf, htcore⟩ := run_chunks s.build s chunks [] { s with source := chunks } hd hp
    ho rfl rfl (by rw [scanned_nil]; exact hbuf) (by rw [scanned_nil]; rfl) hchunks hsplit (by simp [NoMarkerAcross])
  obtain ⟨m, u, -, hrun', hset⟩ := scan_settles s.build chunks.flatten
    { s with phase := .scan, buf := chunks.flatten } hd rfl ho rfl rfl
  rw [List.nil_append] at htbuf htcore
  have hcore : t.core = u.core := by
    rw [htcore, hset.coreOf]; exact deliveredAll_core_congr (by rfl) _
  exact ⟨n, m, t, u, hrun, hrun', hidle, hsource, hset.idle, (congrArg State.log hcore :), by rw [htbuf, hset.holds],
    (congrArg State.slotPvt hcore :), (congrArg State.slotPos hcore :), (congrArg State.slotVel hcore :),
    (congrArg State.slotUtc hcore :)⟩

end Sys2Proof.Machine
end
